-- ==== Sys2Proof/Word.lean ====
section
/-! DEFINITION. Words and bytes (00_scope.md R14): a byte is 8 bits, a word of the binary interface is
`IW = 32` bits (R13). -/

namespace Sys2Proof

/-- One byte (R14). -/
abbrev Byte := BitVec 8

/-- One command or response word, `IW = 32` bits (R13, R70). -/
abbrev Word := BitVec 32

end Sys2Proof
end

