-- ==== Sys2Proof/Config.lean ====
section
/-! DEFINITION. What is fixed for an instance or left open: the parameters of 00_scope.md R11 to R13 and
92_eei_decisions.md ("Open parameters, collected"), and the transport's answers as a free value. -/

namespace Sys2Proof

/-- The transport's answer to one Tx event (44_transport.md R185): `ok`, or `fail(info)` with an opaque word. -/
inductive TransportAnswer where
  | ok
  | fail (info : Word)
  deriving DecidableEq, Repr, Inhabited

/-- The domain of the parameter RESET_BYTE (00_scope.md R13; decision D5): `0x88`, or the named alternative `0x00`. -/
inductive ResetByte where
  | x88
  | x00
  deriving DecidableEq, Repr

/-- The byte a value of the parameter stands for (70_reset_and_hazards.md R221). -/
def ResetByte.byte : ResetByte → Byte
  | .x88 => 0x88
  | .x00 => 0x00

namespace Config

/-- `N_MAX = floor((2^31 - 1) / 12)`: the largest `N` the binary interface serves (R13, decision D4). -/
def maxPixels : Nat := 178956970

/-- The pixel count of `State.reset`. DESIGN CHOICE (log entry 1): the spec leaves `N` open; 4 is the count of
the source's own examples. Unsafe where a claim names `State.reset`; every other claim is about every `N`. -/
def pixelCount : Nat := 4

/-- The RESET_BYTE of `State.reset`: the default of decision D5 (log entry 2). -/
def resetByte : ResetByte := .x88

/-- FREE VALUE (log entry 4): the transport's answer where the environment has supplied none, one per draw.
It "is not determined by the block's state" (R185), so it has no body. Safe: a claim about it holds for every answer. -/
opaque transportAnswer : Nat → TransportAnswer

end Config

end Sys2Proof
end

