-- ==== Sys2Proof/Syntax.lean ====
section
/-! DEFINITION. The commands as syntax. First the level-1 surface of 30_encoding.md (R60 to R63): components,
addresses, values, requests. Then `Instr`, one constructor per row of opcode_table.json. An instruction's operands are
level-1 operands, so an integer is a mathematical integer; which instructions have a binary encoding is said in
WellFormed.lean (log entry 17). -/

namespace Sys2Proof

/-- A component (R61): an integer, or the token for an operand that is not one. -/
inductive Comp where
  | int (z : Int)
  | nonInt
  deriving DecidableEq, Repr

/-- One dimension of an address (R62); an absent bound is `none`. -/
inductive Dim where
  | idx (c : Comp)
  | rng (start stop step : Option Comp)
  deriving DecidableEq, Repr

/-- An address: a sequence of `k >= 0` dimensions (R62). -/
abbrev Addr := List Dim

/-- A value (R63): a scalar, a flat sequence, or a sequence of sequences. -/
inductive Value where
  | scalar (c : Comp)
  | seq (xs : List Comp)
  | seqSeq (es : List (List Comp))
  deriving DecidableEq, Repr

/-- A level-1 request: the seven shapes of R60. COMPRESS takes four bytes by construction (R64). -/
inductive Request where
  | expand (x : Value)
  | compress (b0 b1 b2 b3 : Byte)
  | get (addr : Addr)
  | set (addr : Addr) (v : Value)
  | count
  | rotate (v : Value)
  | write
  deriving DecidableEq, Repr

/-- The instructions: one constructor per row of opcode_table.json (R90). `getA3` to `getA8` and `setA3` to `setA8` are
the address classes 3 to 8 of R73, whose members the encoding does not tell apart. -/
inductive Instr where
  | expand (x : Value)
  | compress (b0 b1 b2 b3 : Byte)
  | getP (p : Int)
  | getC (p c : Int)
  | getR (start stop step : Option Int)
  | getA3
  | getA4
  | getA5
  | getA6
  | getA7
  | getA8
  | setP (p : Int) (v : Value)
  | setC (p c : Int) (v : Value)
  | setRB (start stop step : Option Int) (xs : List Comp)
  | setRL (start stop step : Option Int) (es : List (List Comp))
  | setRX0 (start stop step : Option Int) (v : Int)
  | setRX3 (start stop step : Option Int)
  | setA3 (v : Value)
  | setA4 (v : Value)
  | setA5 (v : Value)
  | setA6 (v : Value)
  | setA7 (v : Value)
  | setA8 (v : Value)
  | count
  | rotate (v : Value)
  | write
  deriving DecidableEq, Repr

end Sys2Proof
end

