-- ==== Sys2Proof/WellFormed.lean ====
section
/-! DEFINITION. Well-formed instructions: those with a binary encoding (30_encoding.md R75 to R77; decisions D3, D8).
An integer operand is in the signed 32-bit range, a count in the unsigned one, and a sequence holds integers only. -/

namespace Sys2Proof

/-- `-2^31 <= z <= 2^31 - 1`: the integers with a binary encoding (R76). -/
def fitsWord (z : Int) : Bool := decide (-2147483648 ≤ z) && decide (z ≤ 2147483647)

/-- `n < 2^32`: the counts with a binary encoding (R77). -/
def fitsCount (n : Nat) : Bool := decide (n < 4294967296)

/-- A component inside a sequence: an integer that fits (R75: a NonInt inside a sequence has no encoding). -/
def Comp.wf : Comp → Bool
  | .int z => fitsWord z
  | .nonInt => false

/-- A sequence with a binary encoding: its length and every component fit. -/
def seqWf (xs : List Comp) : Bool := fitsCount xs.length && xs.all Comp.wf

/-- A value with a binary encoding (R75). -/
def Value.wf : Value → Bool
  | .scalar (.int z) => fitsWord z
  | .scalar .nonInt => true
  | .seq xs => seqWf xs
  | .seqSeq es => fitsCount es.length && es.all seqWf

/-- A range bound with a binary encoding: absent, or an integer that fits (R74, R76). -/
def boundWf : Option Int → Bool
  | none => true
  | some z => fitsWord z

/-- The three bounds of a range. -/
def rangeWf (start stop step : Option Int) : Bool := boundWf start && boundWf stop && boundWf step

/-- The instruction has a binary encoding. -/
def Instr.wf : Instr → Bool
  | .expand x => x.wf
  | .compress _ _ _ _ => true
  | .getP p => fitsWord p
  | .getC p c => fitsWord p && fitsWord c
  | .getR start stop step => rangeWf start stop step
  | .getA3 => true
  | .getA4 => true
  | .getA5 => true
  | .getA6 => true
  | .getA7 => true
  | .getA8 => true
  | .setP p v => fitsWord p && v.wf
  | .setC p c v => fitsWord p && fitsWord c && v.wf
  | .setRB start stop step xs => rangeWf start stop step && seqWf xs
  | .setRL start stop step es => rangeWf start stop step && (fitsCount es.length && es.all seqWf)
  | .setRX0 start stop step v => rangeWf start stop step && fitsWord v
  | .setRX3 start stop step => rangeWf start stop step
  | .setA3 v => v.wf
  | .setA4 v => v.wf
  | .setA5 v => v.wf
  | .setA6 v => v.wf
  | .setA7 v => v.wf
  | .setA8 v => v.wf
  | .count => true
  | .rotate v => v.wf
  | .write => true

end Sys2Proof
end

