-- ==== Sys2Proof/Decode.lean ====
section
/-! DEFINITION. The binary encoding, level 2 of 30_encoding.md: the header word (R71 to R75, R79, R88), the operand words
(R76 to R79), the decoder, the encoder, the command length (R80), the level-1 request an instruction denotes (R81), and
the opcode table (R90). The decoder is total on every word sequence and rejects by name. -/

namespace Sys2Proof

/-! ## The header word -/

/-- The slice `w[hi:lo]`, both ends included, as an unsigned number (R14). -/
def bits (w : Word) (hi lo : Nat) : Nat := w.toNat / 2 ^ lo % 2 ^ (hi + 1 - lo)

/-- The address classes AK of R73; a range carries its S, E and T bits (R74). -/
inductive AddrClass where
  | single
  | pair
  | range (s e t : Bool)
  | singleNonInt
  | pairNonInt
  | pairRange
  | ndimOver
  | ndimZero
  | rangeNonInt
  deriving DecidableEq, Repr

/-- The value kinds VK of R75. -/
inductive ValueKind where
  | scalar
  | seq
  | seqSeq
  | nonInt
  deriving DecidableEq, Repr

/-- A legal header: an opcode (R72) with the fields R79 gives it. -/
inductive Header where
  | expand (k : ValueKind)
  | compress
  | get (a : AddrClass)
  | set (a : AddrClass) (k : ValueKind)
  | count
  | rotate (k : ValueKind)
  | write
  deriving DecidableEq, Repr

/-- VK, bits [16:15] (R75). -/
def decodeVK (w : Word) : ValueKind :=
  match bits w 16 15 with
  | 0 => .scalar
  | 1 => .seq
  | 2 => .seqSeq
  | _ => .nonInt

/-- AK with S, E, T, bits [23:17] (R73, R74): S, E and T are 0 unless AK is 2, and AK 9 to 15 is reserved. -/
def decodeAK (w : Word) : Option AddrClass :=
  if bits w 23 20 = 2 then some (.range (bits w 19 19 == 1) (bits w 18 18 == 1) (bits w 17 17 == 1))
  else if bits w 19 17 ≠ 0 then none
  else match bits w 23 20 with
    | 0 => some .single
    | 1 => some .pair
    | 3 => some .singleNonInt
    | 4 => some .pairNonInt
    | 5 => some .pairRange
    | 6 => some .ndimOver
    | 7 => some .ndimZero
    | 8 => some .rangeNonInt
    | _ => none

/-- The header a word spells; `none` when it is illegal by R88: a reserved OPC, a nonzero ZERO field, a reserved AK on
GET or SET, or a field that R79 requires to be 0 and is not. -/
def decodeHeader (w : Word) : Option Header :=
  if bits w 14 0 ≠ 0 then none
  else match bits w 31 24 with
    | 1 => if bits w 23 17 = 0 then some (.expand (decodeVK w)) else none
    | 2 => if bits w 23 15 = 0 then some .compress else none
    | 3 => if bits w 16 15 = 0 then (decodeAK w).map .get else none
    | 4 => (decodeAK w).map (fun a => .set a (decodeVK w))
    | 5 => if bits w 23 15 = 0 then some .count else none
    | 6 => if bits w 23 17 = 0 then some (.rotate (decodeVK w)) else none
    | 7 => if bits w 23 15 = 0 then some .write else none
    | _ => none

/-- VK's code (R75). -/
def ValueKind.code : ValueKind → Nat
  | .scalar => 0
  | .seq => 1
  | .seqSeq => 2
  | .nonInt => 3

/-- The bits [23:17] of an address class: AK, then S, E, T (R71, R73). -/
def AddrClass.code : AddrClass → Nat
  | .single => 0 * 8
  | .pair => 1 * 8
  | .range s e t => 2 * 8 + s.toNat * 4 + e.toNat * 2 + t.toNat
  | .singleNonInt => 3 * 8
  | .pairNonInt => 4 * 8
  | .pairRange => 5 * 8
  | .ndimOver => 6 * 8
  | .ndimZero => 7 * 8
  | .rangeNonInt => 8 * 8

/-- A header word from its OPC, its bits [23:17] and its VK; ZERO is 0 (R71). -/
def headerWord (opc akset vk : Nat) : Word := BitVec.ofNat 32 (opc * 2 ^ 24 + akset * 2 ^ 17 + vk * 2 ^ 15)

/-- The word of a header (R71 to R75). -/
def encodeHeader : Header → Word
  | .expand k => headerWord 1 0 k.code
  | .compress => headerWord 2 0 0
  | .get a => headerWord 3 a.code 0
  | .set a k => headerWord 4 a.code k.code
  | .count => headerWord 5 0 0
  | .rotate k => headerWord 6 0 k.code
  | .write => headerWord 7 0 0

/-! ## Reading operand words -/

/-- One integer operand: a word read as `sext_32` (R76). -/
def readInt : List Word → Option (Int × List Word)
  | [] => none
  | w :: ws => some (w.toInt, ws)

/-- One count: a word read as `zext_32` (R77). -/
def readCount : List Word → Option (Nat × List Word)
  | [] => none
  | w :: ws => some (w.toNat, ws)

/-- A bound that is present when its header bit is 1 (R74). -/
def readBound : Bool → List Word → Option (Option Int × List Word)
  | false, ws => some (none, ws)
  | true, [] => none
  | true, w :: ws => some (some w.toInt, ws)

/-- The start, stop and step words that are present, in that order (R73). -/
def readRange (s e t : Bool) (ws : List Word) : Option ((Option Int × Option Int × Option Int) × List Word) := do
  let (start, ws) ← readBound s ws
  let (stop, ws) ← readBound e ws
  let (step, ws) ← readBound t ws
  some ((start, stop, step), ws)

/-- `n` integer components (R75). -/
def readComps (n : Nat) (ws : List Word) : Option (List Comp × List Word) :=
  if n ≤ ws.length then some ((ws.take n).map (fun w => .int w.toInt), ws.drop n) else none

/-- A flat sequence: its count, then its components (R75). -/
def readSeq (ws : List Word) : Option (List Comp × List Word) := do
  let (n, ws) ← readCount ws
  readComps n ws

/-- `m` elements, each a flat sequence (R75). -/
def readElems : Nat → List Word → Option (List (List Comp) × List Word)
  | 0, ws => some ([], ws)
  | m + 1, ws => do
    let (e, ws) ← readSeq ws
    let (es, ws) ← readElems m ws
    some (e :: es, ws)

/-- A sequence of sequences: its count, then its elements (R75). -/
def readSeqSeq (ws : List Word) : Option (List (List Comp) × List Word) := do
  let (m, ws) ← readCount ws
  readElems m ws

/-- The value payload of a value kind (R75). -/
def readValue : ValueKind → List Word → Option (Value × List Word)
  | .scalar, ws => do
    let (v, ws) ← readInt ws
    some (.scalar (.int v), ws)
  | .seq, ws => do
    let (xs, ws) ← readSeq ws
    some (.seq xs, ws)
  | .seqSeq, ws => do
    let (es, ws) ← readSeqSeq ws
    some (.seqSeq es, ws)
  | .nonInt, ws => some (.scalar .nonInt, ws)

/-- COMPRESS's packed word: `b0 = W[31:24]` down to `b3 = W[7:0]` (R78). -/
def readGroupWord : List Word → Option (Instr × List Word)
  | [] => none
  | w :: ws => some (.compress (w.extractLsb' 24 8) (w.extractLsb' 16 8) (w.extractLsb' 8 8) (w.extractLsb' 0 8), ws)

/-- The operand words of a GET (R73, R79). -/
def readGet : AddrClass → List Word → Option (Instr × List Word)
  | .single, ws => do
    let (p, ws) ← readInt ws
    some (.getP p, ws)
  | .pair, ws => do
    let (p, ws) ← readInt ws
    let (c, ws) ← readInt ws
    some (.getC p c, ws)
  | .range s e t, ws => do
    let ((start, stop, step), ws) ← readRange s e t ws
    some (.getR start stop step, ws)
  | .singleNonInt, ws => some (.getA3, ws)
  | .pairNonInt, ws => some (.getA4, ws)
  | .pairRange, ws => some (.getA5, ws)
  | .ndimOver, ws => some (.getA6, ws)
  | .ndimZero, ws => some (.getA7, ws)
  | .rangeNonInt, ws => some (.getA8, ws)

/-- The value payload of a range SET, whose kind selects the row (R66, R90). -/
def readRangeValue (start stop step : Option Int) : ValueKind → List Word → Option (Instr × List Word)
  | .scalar, ws => do
    let (v, ws) ← readInt ws
    some (.setRX0 start stop step v, ws)
  | .seq, ws => do
    let (xs, ws) ← readSeq ws
    some (.setRB start stop step xs, ws)
  | .seqSeq, ws => do
    let (es, ws) ← readSeqSeq ws
    some (.setRL start stop step es, ws)
  | .nonInt, ws => some (.setRX3 start stop step, ws)

/-- A SET form whose operands are a value alone. -/
def readValueFor (mk : Value → Instr) (k : ValueKind) (ws : List Word) : Option (Instr × List Word) := do
  let (v, ws) ← readValue k ws
  some (mk v, ws)

/-- The operand words of a SET: the address words, then the value payload (R79). -/
def readSet : AddrClass → ValueKind → List Word → Option (Instr × List Word)
  | .single, k, ws => do
    let (p, ws) ← readInt ws
    readValueFor (.setP p) k ws
  | .pair, k, ws => do
    let (p, ws) ← readInt ws
    let (c, ws) ← readInt ws
    readValueFor (.setC p c) k ws
  | .range s e t, k, ws => do
    let ((start, stop, step), ws) ← readRange s e t ws
    readRangeValue start stop step k ws
  | .singleNonInt, k, ws => readValueFor .setA3 k ws
  | .pairNonInt, k, ws => readValueFor .setA4 k ws
  | .pairRange, k, ws => readValueFor .setA5 k ws
  | .ndimOver, k, ws => readValueFor .setA6 k ws
  | .ndimZero, k, ws => readValueFor .setA7 k ws
  | .rangeNonInt, k, ws => readValueFor .setA8 k ws

/-- The operand words of a legal header, and the words after them (R79). -/
def readOperands : Header → List Word → Option (Instr × List Word)
  | .expand k, ws => readValueFor .expand k ws
  | .compress, ws => readGroupWord ws
  | .get a, ws => readGet a ws
  | .set a k, ws => readSet a k ws
  | .count, ws => some (.count, ws)
  | .rotate k, ws => readValueFor .rotate k ws
  | .write, ws => some (.write, ws)

/-! ## The decoder -/

/-- What a word sequence is: a legal command, a command with an illegal header (one word long, R88), or no command
(R80: "A word sequence shorter or longer than its computed length is not a command"). -/
inductive Decoded where
  | instr (i : Instr)
  | illegalHeader
  | tooShort
  | tooLong
  deriving DecidableEq, Repr

/-- The decoder, total on every word sequence. -/
def decode : List Word → Decoded
  | [] => .tooShort
  | h :: ws =>
    match decodeHeader h with
    | none => if ws = [] then .illegalHeader else .tooLong
    | some hd =>
      match readOperands hd ws with
      | none => .tooShort
      | some (i, []) => .instr i
      | some (_, _ :: _) => .tooLong

/-! ## The command length (R80) -/

/-- The number of address words: 1 for AK 0, 2 for AK 1, `S + E + T` for AK 2, 0 otherwise. -/
def AddrClass.words : AddrClass → Nat
  | .single => 1
  | .pair => 2
  | .range s e t => s.toNat + e.toNat + t.toNat
  | .singleNonInt => 0
  | .pairNonInt => 0
  | .pairRange => 0
  | .ndimOver => 0
  | .ndimZero => 0
  | .rangeNonInt => 0

/-- The words of `m` elements: `1 + len(e)` each (R75). A count word that is not there counts as 0. -/
def elemsLength : Nat → List Word → Nat
  | 0, _ => 0
  | m + 1, ws =>
    let n := (ws.headD 0).toNat
    1 + n + elemsLength m (ws.drop (1 + n))

/-- The words of a value payload (R75). -/
def payloadLength : ValueKind → List Word → Nat
  | .scalar, _ => 1
  | .seq, ws => 1 + (ws.headD 0).toNat
  | .seqSeq, ws => 1 + elemsLength (ws.headD 0).toNat ws.tail
  | .nonInt, _ => 0

/-- The operand words of a header: `A + V` of R80. -/
def operandLength : Header → List Word → Nat
  | .expand k, ws => payloadLength k ws
  | .compress, _ => 1
  | .get a, _ => a.words
  | .set a k, ws => a.words + payloadLength k (ws.drop a.words)
  | .count, _ => 0
  | .rotate k, ws => payloadLength k ws
  | .write, _ => 0

/-- `len = 1 + A + V`: a function of the header and the count words alone (R80); 1 for an illegal header. -/
def commandLength : List Word → Nat
  | [] => 1
  | h :: ws =>
    match decodeHeader h with
    | none => 1
    | some hd => 1 + operandLength hd ws

/-! ## The encoder -/

/-- The word of an integer operand (R76). -/
def intWord (z : Int) : Word := BitVec.ofInt 32 z

/-- The word of a count (R77). -/
def countWord (n : Nat) : Word := BitVec.ofNat 32 n

/-- The word of a component; a NonInt inside a sequence has no encoding (R75), and no well-formed instruction holds one. -/
def Comp.word : Comp → Word
  | .int z => intWord z
  | .nonInt => 0

/-- The word of a bound, when it is present (R74). -/
def boundWords : Option Int → List Word
  | none => []
  | some z => [intWord z]

/-- The words of a range's bounds (R73). -/
def rangeWords (start stop step : Option Int) : List Word := boundWords start ++ boundWords stop ++ boundWords step

/-- The words of a flat sequence (R75). -/
def seqWords (xs : List Comp) : List Word := countWord xs.length :: xs.map Comp.word

/-- The words of a sequence of sequences (R75). -/
def seqSeqWords (es : List (List Comp)) : List Word := countWord es.length :: es.flatMap seqWords

/-- The kind of a value (R75). -/
def Value.kind : Value → ValueKind
  | .scalar (.int _) => .scalar
  | .scalar .nonInt => .nonInt
  | .seq _ => .seq
  | .seqSeq _ => .seqSeq

/-- The payload words of a value (R75). -/
def Value.words : Value → List Word
  | .scalar (.int z) => [intWord z]
  | .scalar .nonInt => []
  | .seq xs => seqWords xs
  | .seqSeq es => seqSeqWords es

/-- The address class of a range with these bounds (R74). -/
def rangeClass (start stop step : Option Int) : AddrClass := .range start.isSome stop.isSome step.isSome

/-- The header of an instruction (R90). -/
def Instr.header : Instr → Header
  | .expand x => .expand x.kind
  | .compress _ _ _ _ => .compress
  | .getP _ => .get .single
  | .getC _ _ => .get .pair
  | .getR start stop step => .get (rangeClass start stop step)
  | .getA3 => .get .singleNonInt
  | .getA4 => .get .pairNonInt
  | .getA5 => .get .pairRange
  | .getA6 => .get .ndimOver
  | .getA7 => .get .ndimZero
  | .getA8 => .get .rangeNonInt
  | .setP _ v => .set .single v.kind
  | .setC _ _ v => .set .pair v.kind
  | .setRB start stop step _ => .set (rangeClass start stop step) .seq
  | .setRL start stop step _ => .set (rangeClass start stop step) .seqSeq
  | .setRX0 start stop step _ => .set (rangeClass start stop step) .scalar
  | .setRX3 start stop step => .set (rangeClass start stop step) .nonInt
  | .setA3 v => .set .singleNonInt v.kind
  | .setA4 v => .set .pairNonInt v.kind
  | .setA5 v => .set .pairRange v.kind
  | .setA6 v => .set .ndimOver v.kind
  | .setA7 v => .set .ndimZero v.kind
  | .setA8 v => .set .rangeNonInt v.kind
  | .count => .count
  | .rotate v => .rotate v.kind
  | .write => .write

/-- The operand words of an instruction, in the order of R79. -/
def Instr.operandWords : Instr → List Word
  | .expand x => x.words
  | .compress b0 b1 b2 b3 => [b0 ++ b1 ++ b2 ++ b3]
  | .getP p => [intWord p]
  | .getC p c => [intWord p, intWord c]
  | .getR start stop step => rangeWords start stop step
  | .getA3 => []
  | .getA4 => []
  | .getA5 => []
  | .getA6 => []
  | .getA7 => []
  | .getA8 => []
  | .setP p v => intWord p :: v.words
  | .setC p c v => intWord p :: intWord c :: v.words
  | .setRB start stop step xs => rangeWords start stop step ++ seqWords xs
  | .setRL start stop step es => rangeWords start stop step ++ seqSeqWords es
  | .setRX0 start stop step v => rangeWords start stop step ++ [intWord v]
  | .setRX3 start stop step => rangeWords start stop step
  | .setA3 v => v.words
  | .setA4 v => v.words
  | .setA5 v => v.words
  | .setA6 v => v.words
  | .setA7 v => v.words
  | .setA8 v => v.words
  | .count => []
  | .rotate v => v.words
  | .write => []

/-- The words of an instruction: its header, then its operand words (R70, R79). -/
def encode (i : Instr) : List Word := encodeHeader i.header :: i.operandWords

/-! ## The level-1 request of an instruction (R81) -/

/-- A bound of a range as a level-1 bound. -/
def boundComp (b : Option Int) : Option Comp := b.map .int

/-- The level-1 address of a range. -/
def rangeAddr (start stop step : Option Int) : Addr := [.rng (boundComp start) (boundComp stop) (boundComp step)]

/-- The level-1 request an instruction denotes (R81), with R81's canonical member for the address classes 3 to 8. -/
def Instr.request : Instr → Request
  | .expand x => .expand x
  | .compress b0 b1 b2 b3 => .compress b0 b1 b2 b3
  | .getP p => .get [.idx (.int p)]
  | .getC p c => .get [.idx (.int p), .idx (.int c)]
  | .getR start stop step => .get (rangeAddr start stop step)
  | .getA3 => .get [.idx .nonInt]
  | .getA4 => .get [.idx .nonInt, .idx .nonInt]
  | .getA5 => .get [.rng none none none, .idx (.int 0)]
  | .getA6 => .get [.idx (.int 0), .idx (.int 0), .idx (.int 0)]
  | .getA7 => .get []
  | .getA8 => .get [.rng (some .nonInt) none none]
  | .setP p v => .set [.idx (.int p)] v
  | .setC p c v => .set [.idx (.int p), .idx (.int c)] v
  | .setRB start stop step xs => .set (rangeAddr start stop step) (.seq xs)
  | .setRL start stop step es => .set (rangeAddr start stop step) (.seqSeq es)
  | .setRX0 start stop step v => .set (rangeAddr start stop step) (.scalar (.int v))
  | .setRX3 start stop step => .set (rangeAddr start stop step) (.scalar .nonInt)
  | .setA3 v => .set [.idx .nonInt] v
  | .setA4 v => .set [.idx .nonInt, .idx .nonInt] v
  | .setA5 v => .set [.rng none none none, .idx (.int 0)] v
  | .setA6 v => .set [.idx (.int 0), .idx (.int 0), .idx (.int 0)] v
  | .setA7 v => .set [] v
  | .setA8 v => .set [.rng (some .nonInt) none none] v
  | .count => .count
  | .rotate v => .rotate v
  | .write => .write

/-- A dimension is a range (R62). -/
def Dim.isRange : Dim → Bool
  | .rng _ _ _ => true
  | .idx _ => false

/-- A component that is not an integer (R61). -/
def Comp.isNonInt : Comp → Bool
  | .nonInt => true
  | .int _ => false

/-- A bound that is present and not an integer. -/
def boundNonInt : Option Comp → Bool
  | some c => c.isNonInt
  | none => false

/-- The AK value of a level-1 address: the classes of the table of R73. -/
def Addr.ak : Addr → Nat
  | [] => 7
  | [.idx (.int _)] => 0
  | [.idx .nonInt] => 3
  | [.rng s e t] => if boundNonInt s || boundNonInt e || boundNonInt t then 8 else 2
  | [.idx c, .idx d] => if c.isNonInt || d.isNonInt then 4 else 1
  | [_, _] => 5
  | _ :: _ :: _ :: _ => 6

/-! ## The opcode table (R90) -/

/-- One row of opcode_table.json: a header word `w` is of the row when `w &&& mask = match`. -/
structure Row where
  mnemonic : String
  matchWord : Word
  mask : Word
  deriving DecidableEq, Repr

/-- The rows EXPAND to GET.A8. -/
def tableGet : List Row :=
  [⟨"EXPAND", 0x01000000, 0xFFFE7FFF⟩, ⟨"COMPRESS", 0x02000000, 0xFFFFFFFF⟩,
   ⟨"GET.P", 0x03000000, 0xFFFFFFFF⟩, ⟨"GET.C", 0x03100000, 0xFFFFFFFF⟩, ⟨"GET.R", 0x03200000, 0xFFF1FFFF⟩,
   ⟨"GET.A3", 0x03300000, 0xFFFFFFFF⟩, ⟨"GET.A4", 0x03400000, 0xFFFFFFFF⟩, ⟨"GET.A5", 0x03500000, 0xFFFFFFFF⟩,
   ⟨"GET.A6", 0x03600000, 0xFFFFFFFF⟩, ⟨"GET.A7", 0x03700000, 0xFFFFFFFF⟩, ⟨"GET.A8", 0x03800000, 0xFFFFFFFF⟩]

/-- The rows SET.P to SET.A8. -/
def tableSet : List Row :=
  [⟨"SET.P", 0x04000000, 0xFFFE7FFF⟩, ⟨"SET.C", 0x04100000, 0xFFFE7FFF⟩, ⟨"SET.RB", 0x04208000, 0xFFF1FFFF⟩,
   ⟨"SET.RL", 0x04210000, 0xFFF1FFFF⟩, ⟨"SET.RX0", 0x04200000, 0xFFF1FFFF⟩, ⟨"SET.RX3", 0x04218000, 0xFFF1FFFF⟩,
   ⟨"SET.A3", 0x04300000, 0xFFFE7FFF⟩, ⟨"SET.A4", 0x04400000, 0xFFFE7FFF⟩, ⟨"SET.A5", 0x04500000, 0xFFFE7FFF⟩,
   ⟨"SET.A6", 0x04600000, 0xFFFE7FFF⟩, ⟨"SET.A7", 0x04700000, 0xFFFE7FFF⟩, ⟨"SET.A8", 0x04800000, 0xFFFE7FFF⟩]

/-- The rows COUNT, ROTATE, WRITE. -/
def tableRest : List Row :=
  [⟨"COUNT", 0x05000000, 0xFFFFFFFF⟩, ⟨"ROTATE", 0x06000000, 0xFFFE7FFF⟩, ⟨"WRITE", 0x07000000, 0xFFFFFFFF⟩]

/-- The opcode table, 26 rows, in its order. -/
def opcodeTable : List Row := tableGet ++ tableSet ++ tableRest

/-- The header word is of the row. -/
def Row.admits (r : Row) (w : Word) : Bool := w &&& r.mask == r.matchWord

/-- The mnemonic of an instruction in opcode_table.json. -/
def Instr.mnemonic : Instr → String
  | .expand _ => "EXPAND"
  | .compress _ _ _ _ => "COMPRESS"
  | .getP _ => "GET.P"
  | .getC _ _ => "GET.C"
  | .getR _ _ _ => "GET.R"
  | .getA3 => "GET.A3"
  | .getA4 => "GET.A4"
  | .getA5 => "GET.A5"
  | .getA6 => "GET.A6"
  | .getA7 => "GET.A7"
  | .getA8 => "GET.A8"
  | .setP _ _ => "SET.P"
  | .setC _ _ _ => "SET.C"
  | .setRB _ _ _ _ => "SET.RB"
  | .setRL _ _ _ _ => "SET.RL"
  | .setRX0 _ _ _ _ => "SET.RX0"
  | .setRX3 _ _ _ => "SET.RX3"
  | .setA3 _ => "SET.A3"
  | .setA4 _ => "SET.A4"
  | .setA5 _ => "SET.A5"
  | .setA6 _ => "SET.A6"
  | .setA7 _ => "SET.A7"
  | .setA8 _ => "SET.A8"
  | .count => "COUNT"
  | .rotate _ => "ROTATE"
  | .write => "WRITE"

/-- The four value kinds. -/
def allKinds : List ValueKind := [.scalar, .seq, .seqSeq, .nonInt]

/-- The sixteen settings of AK, S, E, T that GET and SET admit (R90). -/
def allClasses : List AddrClass :=
  [.single, .pair,
   .range false false false, .range false false true, .range false true false, .range false true true,
   .range true false false, .range true false true, .range true true false, .range true true true,
   .singleNonInt, .pairNonInt, .pairRange, .ndimOver, .ndimZero, .rangeNonInt]

/-- The 91 legal headers of R90. -/
def allHeaders : List Header :=
  allKinds.map .expand ++ [.compress] ++ allClasses.map .get ++
  allClasses.flatMap (fun a => allKinds.map (.set a)) ++ [.count] ++ allKinds.map .rotate ++ [.write]

/-! ## Words numbered as opcode_table.json numbers them -/

/-- The 32-bit words of the low `nbits` bits of `w`: the first word is bits 31..0, a later word counts on from it. -/
def wordsOf (nbits w : Nat) : List Word :=
  (List.range (max 1 ((nbits + 31) / 32))).map (fun k => BitVec.ofNat 32 (w % 2 ^ nbits / 2 ^ (32 * k)))

/-- The command whose first `nbits` bits are `w` and whose bits above are 0: operand words of zeros up to the command's
own length (R80). -/
def tableCommand (nbits w : Nat) : List Word :=
  let ws := wordsOf nbits w
  ws ++ List.replicate (commandLength ws - ws.length) 0

/-- The instruction a decoding gives. -/
def Decoded.toOption : Decoded → Option Instr
  | .instr i => some i
  | .illegalHeader => none
  | .tooShort => none
  | .tooLong => none

/-- The instruction the decoder reads from an instruction whose bits are `w`, numbered as opcode_table.json numbers them. -/
def decodeTableWord (nbits w : Nat) : Option Instr := (decode (tableCommand nbits w)).toOption

end Sys2Proof
end

