-- ==== Sys2Proof/Machine/State.lean ====
section
/-! DEFINITION. The state as plain data, the reasons a step can stop, and the state after reset.
The spec's architectural state is `N` and `BUF` (10_state.md R20); beside them stand the instance's reset byte, the five
ports of decision D2, and one counter of the model's own (log entry 4). -/

namespace Sys2Proof.Machine

/-- The error kinds of 60_exceptions.md R190. TransportFailure carries the transport's word (R197). -/
inductive ErrorKind where
  | outOfRange
  | unsupportedOperation
  | shapeMismatch
  | typeMismatch
  | valueOutOfDomain
  | dimensionality
  | transportFailure (info : Word)
  | illegalCommand
  deriving DecidableEq, Repr

/-- The four bytes of one expanded channel, `b0` at the lowest offset (20_memory.md R42, R44). -/
structure Group where
  b0 : Byte
  b1 : Byte
  b2 : Byte
  b3 : Byte
  deriving DecidableEq, Repr

/-- The data of a successful response (30_encoding.md R65): nothing, EXPAND's four bytes, channel values, or `N`. -/
inductive Payload where
  | empty
  | group (g : Group)
  | values (vs : List Byte)
  | count (n : Nat)
  deriving DecidableEq, Repr

/-- A response: OK with its data, or exactly one error kind (R65, R190). -/
inductive Response where
  | ok (d : Payload)
  | error (e : ErrorKind)
  deriving DecidableEq, Repr

/-- What the block emits, in order (decision D27): Tx events on TX, responses on RSP. -/
inductive Event where
  | tx (bytes : List Byte)
  | response (r : Response)
  deriving DecidableEq, Repr

/-- A move of the host (70_reset_and_hazards.md R232): one whole command in the binary encoding (R70), one level-1
request (R60), or the reset event RST between commands (R223). -/
inductive HostMove where
  | command (words : List Word)
  | request (r : Request)
  | reset
  deriving DecidableEq, Repr

/-- What the transport does with one Tx event: put an answer on the port TXS, one bit and a 32-bit word
(44_transport.md R188), or never answer (R186, R235). -/
inductive TxsInput where
  | answer (fail : BitVec 1) (info : Word)
  | silent
  deriving DecidableEq, Repr

/-- BUF as address and byte pairs: addresses strictly rising, no entry equal to the reset byte. -/
abbrev Memory := List Host.Cell

/-- The state of one instance. -/
structure State where
  /-- `N`, the register PIXEL_COUNT: constant for the life of the instance (R20, R28). -/
  pixelCount : Nat
  /-- The parameter RESET_BYTE of the instance (R221, decision D5). -/
  resetByte : ResetByte
  /-- `BUF` (R21), offsets `0 .. 12 * N - 1`; an unlisted offset reads as the reset byte. -/
  mem : Memory
  /-- The host's moves not yet served, oldest first: the CMD and RST ports (log entry 3). -/
  inputs : List HostMove
  /-- The transport's moves already supplied, one per coming Tx: the TXS port (log entry 4). -/
  txs : List TxsInput
  /-- The MODEL's own counter of transport answers drawn as free values (log entry 4). -/
  draws : Nat
  /-- Everything emitted on TX and RSP, oldest first (log entry 6). -/
  trace : List Event
  deriving DecidableEq, Repr

/-- The reasons the machine stops. -/
inductive Fault where
  /-- Raised by `State.memRead` and `State.memWrite` for an offset outside `0 .. 12 * N - 1`, which does not exist
  (00_scope.md R17). No command forms one. Safe. -/
  | offsetOutsideBuffer (offset : Nat)
  /-- Raised by WRITE when the transport never answers: the block stays inside the step for ever (R186, R235). Safe. -/
  | transportSilent
  deriving DecidableEq, Repr

/-- The reasons a step has no meaning. -/
inductive Refusal where
  /-- An instruction without a meaning yet, rejected in its arm of `exec`. Safe. -/
  | notModelled (mnemonic : String)
  /-- Raised by a step of a configuration with `N = 0`, of which no instance exists (70_reset_and_hazards.md R224). Safe. -/
  | noInstance
  /-- Raised by a step that serves a binary command when `N > N_MAX` (decision D4, U11). Safe. -/
  | noBinaryInterface
  /-- Raised by a step on a word sequence that is no command, being shorter or longer than its length (R80, U10). Safe. -/
  | notACommand
  deriving DecidableEq, Repr

/-- The instance right after construction with a pixel count and a reset byte: nothing listed in BUF, no move pending,
nothing emitted (70_reset_and_hazards.md R220 to R222). -/
def State.init (n : Nat) (rb : ResetByte) : State :=
  { pixelCount := n, resetByte := rb, mem := [], inputs := [], txs := [], draws := 0, trace := [] }

/-- The machine right after reset: the instance of Config's parameters (log entries 1, 2, 3, 4, 6). -/
def State.reset : State := State.init Config.pixelCount Config.resetByte

end Sys2Proof.Machine
end

