-- ==== Sys2Proof/Machine/ByteCodec.lean ====
section
/-! DEFINITION. The functions of the ByteCodec component (40_codec.md R100 to R108): `expand` and `compress`. -/

namespace Sys2Proof.Machine

/-- The lookup table `T` (R101, R102). -/
def tableByte (pair : BitVec 2) : Byte :=
  match pair.toNat with
  | 0 => 0x88
  | 1 => 0x8C
  | 2 => 0xC8
  | _ => 0xCC

/-- `expand(v)`: the table bytes of the four bit pairs, most significant first (R101). -/
def expand (v : Byte) : Group :=
  { b0 := tableByte (v.extractLsb' 6 2), b1 := tableByte (v.extractLsb' 4 2),
    b2 := tableByte (v.extractLsb' 2 2), b3 := tableByte (v.extractLsb' 0 2) }

/-- One bit as a bit string of length 1. -/
def bitAt (b : Byte) (k : Nat) : BitVec 1 := b.extractLsb' k 1

/-- `compress`: bit 6 and bit 2 of each byte, the first byte's pair first (R105); every other bit is ignored (R107,
log entry 7). -/
def compress (g : Group) : Byte :=
  bitAt g.b0 6 ++ bitAt g.b0 2 ++ bitAt g.b1 6 ++ bitAt g.b1 2 ++ bitAt g.b2 6 ++ bitAt g.b2 2 ++
    bitAt g.b3 6 ++ bitAt g.b3 2

/-- A canonical byte: one of the four table bytes (00_scope.md R19). -/
def canonicalByte (b : Byte) : Bool := b == 0x88 || b == 0x8C || b == 0xC8 || b == 0xCC

/-- A canonical group: four canonical bytes (R19, R107). -/
def Group.canonical (g : Group) : Bool :=
  canonicalByte g.b0 && canonicalByte g.b1 && canonicalByte g.b2 && canonicalByte g.b3

/-- The bytes of a group, lowest offset first (R44). -/
def Group.bytes (g : Group) : List Byte := [g.b0, g.b1, g.b2, g.b3]

/-- Four bytes in one word, `b0` in bits [31:24] (30_encoding.md R78). -/
def Group.word (g : Group) : Word := g.b0 ++ g.b1 ++ g.b2 ++ g.b3

/-- A pixel's three channel values (00_scope.md R19). -/
structure Triple where
  c0 : Byte
  c1 : Byte
  c2 : Byte
  deriving DecidableEq, Repr

/-- The values of a triple in channel order. -/
def Triple.values (t : Triple) : List Byte := [t.c0, t.c1, t.c2]

/-- The value of channel `c` of a triple. -/
def Triple.channel (t : Triple) (c : Nat) : Byte :=
  match c with
  | 0 => t.c0
  | 1 => t.c1
  | _ => t.c2

end Sys2Proof.Machine
end

