-- ==== Sys2Proof/Machine/Flags.lean ====
section
/-! DEFINITION. The block has no flags (10_state.md R27): the outcome of a command exists only in its response. This file
holds what stands in their place, the status of a response and its two views: the level-1 data (30_encoding.md R65) and
the words on the RSP port (R82). -/

namespace Sys2Proof.Machine

/-- The status code of an error kind (60_exceptions.md R190). -/
def ErrorKind.code : ErrorKind → Nat
  | .outOfRange => 1
  | .unsupportedOperation => 2
  | .shapeMismatch => 3
  | .typeMismatch => 4
  | .valueOutOfDomain => 5
  | .dimensionality => 6
  | .transportFailure _ => 7
  | .illegalCommand => 8

/-- The status code of a response: 0 for OK (R190). -/
def Response.code : Response → Nat
  | .ok _ => 0
  | .error e => e.code

/-- The level-1 data of a payload (R65). -/
def Payload.data : Payload → List Nat
  | .empty => []
  | .group g => g.bytes.map BitVec.toNat
  | .values vs => vs.map BitVec.toNat
  | .count n => [n]

/-- The level-1 data of a response: empty for every error except TransportFailure (R65, R190). -/
def Response.data : Response → List Nat
  | .ok d => d.data
  | .error (.transportFailure info) => [info.toNat]
  | .error _ => []

/-- The data words of a payload: EXPAND's four bytes in one word, every other value one word (R82). -/
def Payload.words : Payload → List Word
  | .empty => []
  | .group g => [g.word]
  | .values vs => vs.map (fun v => v.setWidth 32)
  | .count n => [BitVec.ofNat 32 n]

/-- The data words of a response (R82). -/
def Response.dataWords : Response → List Word
  | .ok d => d.words
  | .error (.transportFailure info) => [info]
  | .error _ => []

/-- The words of a response on RSP: the status word, DCOUNT, the data words (R82). -/
def Response.words (r : Response) : List Word :=
  BitVec.ofNat 32 r.code :: BitVec.ofNat 32 r.dataWords.length :: r.dataWords

/-- The words an event puts on RSP. -/
def Event.rspWords : Event → List Word
  | .tx _ => []
  | .response r => r.words

/-- The bytes an event puts on TX (44_transport.md R188). -/
def Event.txBytes : Event → List Byte
  | .tx bytes => bytes
  | .response _ => []

/-- Everything sent on the RSP port, in order. -/
def State.rspPort (s : State) : List Word := s.trace.flatMap Event.rspWords

/-- Everything sent on the TX port, in order. -/
def State.txPort (s : State) : List Byte := s.trace.flatMap Event.txBytes

/-- The event is a response. -/
def Event.isResponse : Event → Bool
  | .response _ => true
  | .tx _ => false

end Sys2Proof.Machine
end

