-- ==== Sys2Proof/Machine/Ops.lean ====
section
/-! DEFINITION. The shared operations: bytes of BUF, groups and slots, the end of a command (success and error), the
transport's answer, and reset. -/

namespace Sys2Proof.Machine

/-- The outcome of a step of this machine. -/
abbrev Out := Host.Outcome State Fault Refusal

/-! ## Memory as data -/

/-- The byte at an address; `d` where none is listed. -/
def Memory.read (d : Byte) : Memory → Nat → Byte
  | [], _ => d
  | (k, b) :: m, a => if k = a then b else Memory.read d m a

/-- An entry put before the first entry with a larger address. -/
def Memory.insert (a : Nat) (b : Byte) : Memory → Memory
  | [] => [(a, b)]
  | (k, x) :: m => if a < k then (a, b) :: (k, x) :: m else (k, x) :: Memory.insert a b m

/-- The memory with nothing listed at an address. -/
def Memory.erase (m : Memory) (a : Nat) : Memory := m.filter (fun c => c.1 != a)

/-- One byte written; writing what an unlisted address reads as removes the entry. -/
def Memory.write (d : Byte) (m : Memory) (a : Nat) (b : Byte) : Memory :=
  if b = d then Memory.erase m a else Memory.insert a b (Memory.erase m a)

/-- Bytes written at `a`, `a + 1`, … in that order (00_scope.md R17, MemWrite). -/
def Memory.writeBytes (d : Byte) (m : Memory) (a : Nat) : List Byte → Memory
  | [] => m
  | b :: bs => Memory.writeBytes d (Memory.write d m a b) (a + 1) bs

/-- The canonical form: addresses strictly rising, no entry equal to what an unlisted address reads as. -/
abbrev Memory.wf (d : Byte) (m : Memory) : Prop :=
  m.Pairwise (fun x y => x.1 < y.1) ∧ ∀ c ∈ m, c.2 ≠ d

/-! ## Bytes, groups and slots of BUF -/

/-- `L = 12 * N`, the length of BUF (10_state.md R21). -/
def State.length (s : State) : Nat := 12 * s.pixelCount

/-- `BUF[a]` (00_scope.md R17); an offset that nothing has written reads as RESET_BYTE (70_reset_and_hazards.md R221). -/
def State.byteAt (s : State) (a : Nat) : Byte := Memory.read s.resetByte.byte s.mem a

/-- The `n` bytes from offset `a`, lowest offset first. -/
def State.bytes (s : State) (a n : Nat) : List Byte := (List.range n).map (fun k => s.byteAt (a + k))

/-- `MemRead(a, n)` (R17): a fault outside `0 .. L-1`. -/
def State.memRead (s : State) (a n : Nat) : Except Fault (List Byte) :=
  if a + n ≤ s.length then .ok (s.bytes a n) else .error (.offsetOutsideBuffer a)

/-- `MemWrite(a, n, bs)` with `n` the length of `bs` (R17): a fault outside `0 .. L-1`. -/
def State.memWrite (s : State) (a : Nat) (bs : List Byte) : Except Fault State :=
  if a + bs.length ≤ s.length then .ok { s with mem := Memory.writeBytes s.resetByte.byte s.mem a bs }
  else .error (.offsetOutsideBuffer a)

/-- `goff(i, c) = 12*i + 4*c`, the offset of the group of cell (i, c) (20_memory.md R41). -/
def goff (i c : Nat) : Nat := 12 * i + 4 * c

/-- `soff(i) = 12*i`, the offset of the slot of pixel `i` (R41). -/
def soff (i : Nat) : Nat := 12 * i

/-- The four bytes from offset `a` as a group (R44). -/
def State.groupAt (s : State) (a : Nat) : Group :=
  { b0 := s.byteAt a, b1 := s.byteAt (a + 1), b2 := s.byteAt (a + 2), b3 := s.byteAt (a + 3) }

/-- `MemRead(a, 4)` as a group: a fault outside `0 .. L-1`. -/
def State.readGroup (s : State) (a : Nat) : Except Fault Group :=
  if a + 4 ≤ s.length then .ok (s.groupAt a) else .error (.offsetOutsideBuffer a)

/-- `cell(i, c) = compress(MemRead(12*i + 4*c, 4))`, the logical cell file (10_state.md R23). -/
def State.cell (s : State) (i c : Nat) : Byte := compress (s.groupAt (goff i c))

/-- The read of one cell (42_pixel_buffer.md R141). -/
def State.readCell (s : State) (i c : Nat) : Except Fault Byte := do
  let g ← s.readGroup (goff i c)
  .ok (compress g)

/-- The three cells of a pixel in channel order (R140). -/
def State.readPixel (s : State) (i : Nat) : Except Fault (List Byte) := do
  let c0 ← s.readCell i 0
  let c1 ← s.readCell i 1
  let c2 ← s.readCell i 2
  .ok [c0, c1, c2]

/-- The cells of `k` pixels from pixel `i` on, in ascending order (R142). -/
def State.readPixels (s : State) (i : Nat) : Nat → Except Fault (List Byte)
  | 0 => .ok []
  | k + 1 => do
    let p ← s.readPixel i
    let ps ← s.readPixels (i + 1) k
    .ok (p ++ ps)

/-- One channel value expanded into its group (R147). -/
def State.writeCell (s : State) (i c : Nat) (v : Byte) : Except Fault State :=
  s.memWrite (goff i c) (expand v).bytes

/-- A triple expanded into a pixel's slot, channel 0 first (R145). -/
def State.writePixel (s : State) (i : Nat) (t : Triple) : Except Fault State := do
  let s ← s.writeCell i 0 t.c0
  let s ← s.writeCell i 1 t.c1
  s.writeCell i 2 t.c2

/-- Triples expanded into the slots from pixel `i` on, in order (R153). -/
def State.writePixels (s : State) (i : Nat) : List Triple → Except Fault State
  | [] => .ok s
  | t :: ts => do
    let s ← s.writePixel i t
    s.writePixels (i + 1) ts

/-- The tile copy of slot `a` into `k` slots from pixel `i` on (R150): `MemWrite(12*i, 12, MemRead(12*a, 12))`. -/
def State.tileCopy (s : State) (a i : Nat) : Nat → Except Fault State
  | 0 => .ok s
  | k + 1 => do
    let slot ← s.memRead (soff a) 12
    let s ← s.memWrite (soff i) slot
    s.tileCopy a (i + 1) k

/-! ## The end of a command -/

/-- The state with one more event emitted. -/
def State.emit (s : State) (e : Event) : State := { s with trace := s.trace ++ [e] }

/-- `respond(d)`: the command ends successfully with data `d` (R17). -/
def respond (d : Payload) (s : State) : Out := .next (s.emit (.response (.ok d)))

/-- `raise kind`, the block's only exception entry: the command ends with the error in its response, no state is written,
nothing is saved, and the next command runs normally (60_exceptions.md R201, R203). -/
def raise (e : ErrorKind) (s : State) : Out := .next (s.emit (.response (.error e)))

/-- The end of a command that writes: an empty response from the written state. -/
def finish : Except Fault State → Out
  | .ok t => respond .empty t
  | .error f => .fault f

/-- The end of a command that reads channel values. -/
def answerValues (s : State) : Except Fault (List Byte) → Out
  | .ok vs => respond (.values vs) s
  | .error f => .fault f

/-- The command goes on with the result of a check, or ends with the error that the check raises. -/
def andThen {α : Type} (s : State) (x : Except ErrorKind α) (f : α → Out) : Out :=
  match x with
  | .ok v => f v
  | .error e => raise e s

/-! ## The transport and reset -/

/-- The answer that TXS carries: the bit is 0 for `ok` and 1 for `fail`, and the word is meaningful only with `fail`
(44_transport.md R188). -/
def readTxs (fail : BitVec 1) (info : Word) : TransportAnswer := if fail = 0 then .ok else .fail info

/-- What a move of the transport answers; `none` when it never answers (R186). -/
def TxsInput.read : TxsInput → Option TransportAnswer
  | .answer fail info => some (readTxs fail info)
  | .silent => none

/-- A spelling of an answer on TXS (R188); the word sent with `ok` is immaterial. -/
def txsSignal : TransportAnswer → TxsInput
  | .ok => .answer 0 0
  | .fail info => .answer 1 info

/-- The transport's answer to one Tx (R185): the one supplied on TXS, else a free answer (log entry 4). -/
def State.nextAnswer (s : State) : Option TransportAnswer × State :=
  match s.txs with
  | [] => (some (Config.transportAnswer s.draws), { s with draws := s.draws + 1 })
  | a :: rest => (a.read, { s with txs := rest })

/-- The response to a WRITE that the transport answered (R180, R185). -/
def answerResponse : TransportAnswer → Response
  | .ok => .ok .empty
  | .fail info => .error (.transportFailure info)

/-- RST: BUF is refilled with the reset byte; `N` and the transport stay (70_reset_and_hazards.md R223). -/
def State.refill (s : State) : State := { s with mem := [] }

/-- Construction: no instance for a pixel count that is not positive (R224). -/
def construct (count : Int) (rb : ResetByte) : Option State :=
  if 0 < count then some (State.init count.toNat rb) else none

end Sys2Proof.Machine
end

