-- ==== Sys2Proof/Machine/Operands.lean ====
section
/-! DEFINITION. The operand forms: address resolution, the IndexResolver component (41_index_resolver.md R120 to R128), and
the checks of a value (42_pixel_buffer.md R144, R147; 40_codec.md R101). -/

namespace Sys2Proof.Machine

/-- A resolved address (R120). -/
inductive Resolved where
  | single (i : Nat)
  | paired (i c : Nat)
  | range (a b : Nat)
  deriving DecidableEq, Repr

/-- `norm_index(p)`: a negative index has `N` added once; the result must be a pixel (R121). -/
def normIndex (n : Nat) (p : Int) : Except ErrorKind Nat :=
  let i := if p < 0 then p + n else p
  if i < 0 ∨ (n : Int) ≤ i then .error .outOfRange else .ok i.toNat

/-- A channel index: `0 <= c < 3`, with no negative alias (R123). -/
def checkChannel (c : Int) : Except ErrorKind Nat :=
  if c < 0 ∨ 3 ≤ c then .error .outOfRange else .ok c.toNat

/-- A (pixel, channel) pair: the pixel first, then the channel (R123). -/
def resolvePair (n : Nat) (p c : Int) : Except ErrorKind (Nat × Nat) := do
  let i ← normIndex n p
  let c ← checkChannel c
  .ok (i, c)

/-- `norm_bound(x, default)`: a negative bound has `N` added and is raised to 0; a bound above `N` is lowered to `N` (R128). -/
def normBound (n : Nat) (x : Option Int) (default : Nat) : Nat :=
  match x with
  | none => default
  | some z => if z < 0 then (max (z + n) 0).toNat else (min z n).toNat

/-- `norm_range(s, e)`: reversed bounds give the empty range at the start (R128). -/
def normRange (n : Nat) (start stop : Option Int) : Nat × Nat :=
  let a := normBound n start 0
  let b := normBound n stop n
  if b < a then (a, a) else (a, b)

/-- The only step is 1, which an absent step means; the step is judged before the bounds (R127). -/
def resolveRange (n : Nat) (start stop step : Option Int) : Except ErrorKind (Nat × Nat) :=
  if step = none ∨ step = some 1 then .ok (normRange n start stop) else .error .unsupportedOperation

/-- A bound of a level-1 range: absent, an integer, or TypeMismatch (R126). -/
def intBound : Option Comp → Except ErrorKind (Option Int)
  | none => .ok none
  | some (.int z) => .ok (some z)
  | some .nonInt => .error .typeMismatch

/-- One dimension (R120): a bare index or a range. -/
def resolveOne (n : Nat) : Dim → Except ErrorKind Resolved
  | .idx .nonInt => .error .typeMismatch
  | .idx (.int p) => do
    let i ← normIndex n p
    .ok (.single i)
  | .rng start stop step => do
    let start ← intBound start
    let stop ← intBound stop
    let step ← intBound step
    let (a, b) ← resolveRange n start stop step
    .ok (.range a b)

/-- Two dimensions (R120): a range component, then a NonInt component, then the bounds (R123 to R125). -/
def resolveTwo (n : Nat) : Dim → Dim → Except ErrorKind Resolved
  | .rng _ _ _, _ => .error .unsupportedOperation
  | .idx _, .rng _ _ _ => .error .unsupportedOperation
  | .idx .nonInt, .idx _ => .error .typeMismatch
  | .idx (.int _), .idx .nonInt => .error .typeMismatch
  | .idx (.int p), .idx (.int c) => do
    let (i, c) ← resolvePair n p c
    .ok (.paired i c)

/-- `resolve(addr)` (R120): the number of dimensions is judged first (R122). It reads `N` and nothing else. -/
def resolve (n : Nat) : Addr → Except ErrorKind Resolved
  | [] => .error .dimensionality
  | [d] => resolveOne n d
  | [d, e] => resolveTwo n d e
  | _ :: _ :: _ :: _ => .error .dimensionality

/-- One channel value: a NonInt is TypeMismatch, an integer outside `0 .. 255` is ValueOutOfDomain (R144, R147). Nothing
is truncated (60_exceptions.md R202). -/
def channelValue : Comp → Except ErrorKind Byte
  | .nonInt => .error .typeMismatch
  | .int v => if v < 0 ∨ 255 < v then .error .valueOutOfDomain else .ok (BitVec.ofInt 8 v)

/-- A value that must be one channel value: a sequence is TypeMismatch (R147; 40_codec.md R101). -/
def scalarValue : Value → Except ErrorKind Byte
  | .scalar c => channelValue c
  | .seq _ => .error .typeMismatch
  | .seqSeq _ => .error .typeMismatch

/-- A value that must be an integer: ROTATE's count (43_rotator.md R170). -/
def scalarInt : Value → Except ErrorKind Int
  | .scalar (.int k) => .ok k
  | .scalar .nonInt => .error .typeMismatch
  | .seq _ => .error .typeMismatch
  | .seqSeq _ => .error .typeMismatch

/-- `check_triple(s)`: the length, then the components left to right, type before domain (R144). -/
def checkTriple : List Comp → Except ErrorKind Triple
  | [x, y, z] => do
    let c0 ← channelValue x
    let c1 ← channelValue y
    let c2 ← channelValue z
    .ok { c0 := c0, c1 := c1, c2 := c2 }
  | _ => .error .shapeMismatch

/-- All elements of a list in ascending order; the first failing element's error is raised (R153). -/
def checkTriples : List (List Comp) → Except ErrorKind (List Triple)
  | [] => .ok []
  | e :: es => do
    let t ← checkTriple e
    let ts ← checkTriples es
    .ok (t :: ts)

end Sys2Proof.Machine
end

