-- ==== Sys2Proof/Machine/AddressErrors.lean ====
section
/-! DEFINITION. The address-error forms GET.A3 to GET.A8 and SET.A3 to SET.A8 (30_encoding.md R73, R89): legal commands whose
meaning is the error that address resolution gives every address of the class. A SET form's value is framed and ignored,
because the address is judged first (R90; 60_exceptions.md R200). -/

namespace Sys2Proof.Machine

/-- GET.A3: a single index that is no integer (41_index_resolver.md R121). -/
def execGetA3 (s : State) : Out := raise .typeMismatch s

/-- GET.A4: a pair with a NonInt component and no range component (R125). -/
def execGetA4 (s : State) : Out := raise .typeMismatch s

/-- GET.A5: a pair with a range component (R124). -/
def execGetA5 (s : State) : Out := raise .unsupportedOperation s

/-- GET.A6: more than two dimensions (R122). -/
def execGetA6 (s : State) : Out := raise .dimensionality s

/-- GET.A7: no dimension (R122). -/
def execGetA7 (s : State) : Out := raise .dimensionality s

/-- GET.A8: a range with a NonInt bound (R126). -/
def execGetA8 (s : State) : Out := raise .typeMismatch s

/-- SET.A3 (R121). -/
def execSetA3 (_v : Value) (s : State) : Out := raise .typeMismatch s

/-- SET.A4 (R125). -/
def execSetA4 (_v : Value) (s : State) : Out := raise .typeMismatch s

/-- SET.A5 (R124). -/
def execSetA5 (_v : Value) (s : State) : Out := raise .unsupportedOperation s

/-- SET.A6 (R122). -/
def execSetA6 (_v : Value) (s : State) : Out := raise .dimensionality s

/-- SET.A7 (R122). -/
def execSetA7 (_v : Value) (s : State) : Out := raise .dimensionality s

/-- SET.A8 (R126). -/
def execSetA8 (_v : Value) (s : State) : Out := raise .typeMismatch s

end Sys2Proof.Machine
end

