-- ==== Sys2Proof/Machine/CodecCommands.lean ====
section
/-! DEFINITION. EXPAND and COMPRESS (40_codec.md). Both read and write no state of the block (R100). -/

namespace Sys2Proof.Machine

/-- EXPAND (R101). -/
def execExpand (x : Value) (s : State) : Out :=
  andThen s (scalarValue x) fun v => respond (.group (expand v)) s

/-- COMPRESS (R105); no input raises an error (R107). -/
def execCompress (b0 b1 b2 b3 : Byte) (s : State) : Out :=
  respond (.values [compress { b0 := b0, b1 := b1, b2 := b2, b3 := b3 }]) s

end Sys2Proof.Machine
end

