-- ==== Sys2Proof/Machine/PixelBuffer.lean ====
section
/-! DEFINITION. The PixelBuffer component (42_pixel_buffer.md): what GET and SET do at a resolved address, and the
instructions GET.P, GET.C, GET.R, SET.P, SET.C, SET.RB, SET.RL, SET.RX0, SET.RX3, COUNT. The address is judged before the
value (60_exceptions.md R200), and every check is made before the first write (R201). -/

namespace Sys2Proof.Machine

/-! ## At a resolved address -/

/-- GET.P(Single(i)) (R140). -/
def getSingle (i : Nat) (s : State) : Out := answerValues s (s.readPixel i)

/-- GET.C(Paired(i, c)) (R141). -/
def getPaired (i c : Nat) (s : State) : Out := answerValues s ((s.readCell i c).map fun v => [v])

/-- GET.R(Range(a, b)): one triple per pixel, ascending (R142). -/
def getRange (a b : Nat) (s : State) : Out := answerValues s (s.readPixels a (b - a))

/-- SET.P(Single(i), value): only a flat sequence is a triple (R145). -/
def setSingle (i : Nat) (v : Value) (s : State) : Out :=
  match v with
  | .seq xs => andThen s (checkTriple xs) fun t => finish (s.writePixel i t)
  | .scalar _ => raise .shapeMismatch s
  | .seqSeq _ => raise .shapeMismatch s

/-- SET.C(Paired(i, c), value) (R147). -/
def setPaired (i c : Nat) (v : Value) (s : State) : Out :=
  andThen s (scalarValue v) fun b => finish (s.writeCell i c b)

/-- SET.RB(Range(a, b), Seq(xs)): the value is judged even when the range is empty (R152); then the first slot is written
and copied over the rest (R150). -/
def setBroadcast (a b : Nat) (xs : List Comp) (s : State) : Out :=
  andThen s (checkTriple xs) fun t =>
    if a = b then respond .empty s
    else finish (do
      let s ← s.writePixel a t
      s.tileCopy a (a + 1) (b - (a + 1)))

/-- SET.RL(Range(a, b), SeqSeq(es)): the number of elements, then every element, then the writes (R153). -/
def setList (a b : Nat) (es : List (List Comp)) (s : State) : Out :=
  if es.length ≠ b - a then raise .shapeMismatch s
  else andThen s (checkTriples es) fun ts => finish (s.writePixels a ts)

/-- A range SET whose value is a scalar (R155). -/
def setRangeScalar (s : State) : Out := raise .shapeMismatch s

/-! ## The instructions -/

/-- GET.P (R140). -/
def execGetP (p : Int) (s : State) : Out := andThen s (normIndex s.pixelCount p) fun i => getSingle i s

/-- GET.C (R141). -/
def execGetC (p c : Int) (s : State) : Out :=
  andThen s (resolvePair s.pixelCount p c) fun ic => getPaired ic.1 ic.2 s

/-- GET.R (R142). -/
def execGetR (start stop step : Option Int) (s : State) : Out :=
  andThen s (resolveRange s.pixelCount start stop step) fun ab => getRange ab.1 ab.2 s

/-- SET.P (R145). -/
def execSetP (p : Int) (v : Value) (s : State) : Out :=
  andThen s (normIndex s.pixelCount p) fun i => setSingle i v s

/-- SET.C (R147). -/
def execSetC (p c : Int) (v : Value) (s : State) : Out :=
  andThen s (resolvePair s.pixelCount p c) fun ic => setPaired ic.1 ic.2 v s

/-- SET.RB (R150). -/
def execSetRB (start stop step : Option Int) (xs : List Comp) (s : State) : Out :=
  andThen s (resolveRange s.pixelCount start stop step) fun ab => setBroadcast ab.1 ab.2 xs s

/-- SET.RL (R153). -/
def execSetRL (start stop step : Option Int) (es : List (List Comp)) (s : State) : Out :=
  andThen s (resolveRange s.pixelCount start stop step) fun ab => setList ab.1 ab.2 es s

/-- SET.RX0: a range SET with an integer scalar; the operand plays no part (R155). -/
def execSetRX0 (start stop step : Option Int) (_v : Int) (s : State) : Out :=
  andThen s (resolveRange s.pixelCount start stop step) fun _ => setRangeScalar s

/-- SET.RX3: a range SET with a non-integer scalar (R155). -/
def execSetRX3 (start stop step : Option Int) (s : State) : Out :=
  andThen s (resolveRange s.pixelCount start stop step) fun _ => setRangeScalar s

/-- COUNT: the only access to PIXEL_COUNT (R156). -/
def execCount (s : State) : Out := respond (.count s.pixelCount) s

end Sys2Proof.Machine
end

