-- ==== Sys2Proof/Machine/Rotator.lean ====
section
/-! DEFINITION. The Rotator component (43_rotator.md): ROTATE by a snapshot of BUF (R170), and the source's three-step mechanism
(R172), which a claim compares with it. -/

namespace Sys2Proof.Machine

/-- `r = k mod N`, the floored remainder, `0 <= r < N` for `N >= 1` (R170, R175; 00_scope.md R15). -/
def rotateCount (n : Nat) (k : Int) : Nat := (k.emod n).toNat

/-- `BUF[(p + c) mod L] <- old[p]` for the positions from `p` on (R170). -/
def placeRotated (d : Byte) (len c p : Nat) (m : Memory) : List Byte → Memory
  | [] => m
  | b :: old => placeRotated d len c (p + 1) (Memory.write d m ((p + c) % len) b) old

/-- The buffer rotated by `c` bytes: every byte of the snapshot moved to its place (R170). -/
def State.rotateBytes (s : State) (c : Nat) : State :=
  { s with mem := placeRotated s.resetByte.byte s.length c 0 s.mem (s.bytes 0 s.length) }

/-- What ROTATE does with an integer count: reduce first, then multiply by 12; no byte is written when `c = 0` (R170, R173). -/
def State.rotated (s : State) (k : Int) : State :=
  let c := 12 * rotateCount s.pixelCount k
  if c = 0 then s else s.rotateBytes c

/-- ROTATE (R170): no integer count is an error. -/
def execRotate (v : Value) (s : State) : Out :=
  andThen s (scalarInt v) fun k => respond .empty (s.rotated k)

/-- The source's mechanism (R172): save the last `c` bytes, move the first `L - c` forward by `c`, put the saved bytes in
front; the move reads every source byte before it is overwritten. -/
def State.rotateThreeStep (s : State) (c : Nat) : Except Fault State := do
  let saved ← s.memRead (s.length - c) c
  let front ← s.memRead 0 (s.length - c)
  let s ← s.memWrite c front
  s.memWrite 0 saved

end Sys2Proof.Machine
end

