-- ==== Sys2Proof/Machine/Transport.lean ====
section
/-! DEFINITION. The TransportAdapter interface (44_transport.md): WRITE. -/

namespace Sys2Proof.Machine

/-- WRITE (R180): the whole buffer in ascending offset order is handed over exactly once (R182, R183), then the transport's
answer is propagated and not interpreted (R185). A transport that never answers leaves the block inside the step (R186,
log entry 5). -/
def execWrite (s : State) : Out :=
  match s.nextAnswer with
  | (some a, t) => .next ((t.emit (.tx (s.bytes 0 s.length))).emit (.response (answerResponse a)))
  | (none, _) => .fault .transportSilent

end Sys2Proof.Machine
end

