-- ==== Sys2Proof/Machine/Dispatch.lean ====
section
/-! DEFINITION. One arm per row of opcode_table.json. -/

namespace Sys2Proof.Machine

def exec (i : Instr) (s : State) : Host.Outcome State Fault Refusal :=
  match i with
  | .expand x => Sys2Proof.Machine.execExpand x s
  | .compress b0 b1 b2 b3 => Sys2Proof.Machine.execCompress b0 b1 b2 b3 s
  | .getP p => Sys2Proof.Machine.execGetP p s
  | .getC p c => Sys2Proof.Machine.execGetC p c s
  | .getR start stop step => Sys2Proof.Machine.execGetR start stop step s
  | .getA3 => Sys2Proof.Machine.execGetA3 s
  | .getA4 => Sys2Proof.Machine.execGetA4 s
  | .getA5 => Sys2Proof.Machine.execGetA5 s
  | .getA6 => Sys2Proof.Machine.execGetA6 s
  | .getA7 => Sys2Proof.Machine.execGetA7 s
  | .getA8 => Sys2Proof.Machine.execGetA8 s
  | .setP p v => Sys2Proof.Machine.execSetP p v s
  | .setC p c v => Sys2Proof.Machine.execSetC p c v s
  | .setRB start stop step xs => Sys2Proof.Machine.execSetRB start stop step xs s
  | .setRL start stop step es => Sys2Proof.Machine.execSetRL start stop step es s
  | .setRX0 start stop step v => Sys2Proof.Machine.execSetRX0 start stop step v s
  | .setRX3 start stop step => Sys2Proof.Machine.execSetRX3 start stop step s
  | .setA3 v => Sys2Proof.Machine.execSetA3 v s
  | .setA4 v => Sys2Proof.Machine.execSetA4 v s
  | .setA5 v => Sys2Proof.Machine.execSetA5 v s
  | .setA6 v => Sys2Proof.Machine.execSetA6 v s
  | .setA7 v => Sys2Proof.Machine.execSetA7 v s
  | .setA8 v => Sys2Proof.Machine.execSetA8 v s
  | .count => Sys2Proof.Machine.execCount s
  | .rotate v => Sys2Proof.Machine.execRotate v s
  | .write => Sys2Proof.Machine.execWrite s

end Sys2Proof.Machine
end

