-- ==== Sys2Proof/Machine/Port.lean ====
section
/-! DEFINITION. Serving the host: a level-1 request (30_encoding.md R60, R66), a binary command (R70, R80, R88), reset (R223),
or no move at all. -/

namespace Sys2Proof.Machine

/-- GET at a resolved address (the dispatch table of R66). -/
def getResolved (r : Resolved) (s : State) : Out :=
  match r with
  | .single i => getSingle i s
  | .paired i c => getPaired i c s
  | .range a b => getRange a b s

/-- SET at a resolved address (the dispatch table of R66): the value's constructor selects the range form. -/
def setResolved (r : Resolved) (v : Value) (s : State) : Out :=
  match r with
  | .single i => setSingle i v s
  | .paired i c => setPaired i c v s
  | .range a b =>
    match v with
    | .seq xs => setBroadcast a b xs s
    | .seqSeq es => setList a b es s
    | .scalar _ => setRangeScalar s

/-- A level-1 request (R60): `resolve` runs first, and a request whose address it rejects ends there (R66). -/
def perform (r : Request) (s : State) : Out :=
  match r with
  | .expand x => execExpand x s
  | .compress b0 b1 b2 b3 => execCompress b0 b1 b2 b3 s
  | .get addr => andThen s (resolve s.pixelCount addr) fun r => getResolved r s
  | .set addr v => andThen s (resolve s.pixelCount addr) fun r => setResolved r v s
  | .count => execCount s
  | .rotate v => execRotate v s
  | .write => execWrite s

/-- A binary command: a legal one runs, an illegal header is answered IllegalCommand with no state change (R88), and a
word sequence of another length is no command (R80). -/
def runCommand (words : List Word) (s : State) : Out :=
  match decode words with
  | .instr i => exec i s
  | .illegalHeader => raise .illegalCommand s
  | .tooShort => .refused .notACommand
  | .tooLong => .refused .notACommand

/-- One move of the host. The binary interface serves `N <= N_MAX` (decision D4). -/
def runMove (m : HostMove) (s : State) : Out :=
  match m with
  | .command words => if s.pixelCount ≤ Config.maxPixels then runCommand words s else .refused .noBinaryInterface
  | .request r => perform r s
  | .reset => .next s.refill

/-- One step: the oldest move not yet served, to completion (20_memory.md R47). With none pending the block holds BUF
(60_exceptions.md R214). No instance exists for `N = 0` (70_reset_and_hazards.md R224). -/
def serve (s : State) : Out :=
  if s.pixelCount = 0 then .refused .noInstance
  else match s.inputs with
    | [] => .next s
    | m :: rest => runMove m { s with inputs := rest }

end Sys2Proof.Machine
end

