-- ==== Sys2Proof/Machine/Step.lean ====
section
/-! DEFINITION. The step, and how the host places a command where the step takes its next one. -/

namespace Sys2Proof.Machine

/-- One step: one host move served (10_state.md R26, 20_memory.md R47). -/
def step (s : State) : Host.Outcome State Fault Refusal := serve s

/-- The command whose first `nbits` bits are `w` sent as the host's next move; nothing else changes (log entry 3). -/
def State.withFetchWord (s : State) (nbits w : Nat) : State :=
  { s with inputs := .command (tableCommand nbits w) :: s.inputs }

end Sys2Proof.Machine
end

