-- ==== Sys2Proof/Safety.lean ====
section
/-! DEFINITION. What a good state is, and the words in which claims about a run are stated. -/

namespace Sys2Proof

/-- The SET instructions that can write. -/
def Instr.isSet : Instr → Bool
  | .setP _ _ => true
  | .setC _ _ _ => true
  | .setRB _ _ _ _ => true
  | .setRL _ _ _ _ => true
  | _ => false

/-- The instructions that write BUF: SET.P, SET.C, SET.RB, SET.RL, ROTATE (10_state.md R20, table). -/
def Instr.writesBuffer : Instr → Bool
  | .rotate _ => true
  | i => i.isSet

/-- The status codes an instruction can end with (60_exceptions.md R199, "By instruction"; 30_encoding.md R73). -/
def Instr.statusCodes : Instr → List Nat
  | .expand _ => [0, 4, 5]
  | .compress _ _ _ _ => [0]
  | .getP _ => [0, 1]
  | .getC _ _ => [0, 1]
  | .getR _ _ _ => [0, 2]
  | .getA3 => [4]
  | .getA4 => [4]
  | .getA5 => [2]
  | .getA6 => [6]
  | .getA7 => [6]
  | .getA8 => [4]
  | .setP _ _ => [0, 1, 3, 4, 5]
  | .setC _ _ _ => [0, 1, 4, 5]
  | .setRB _ _ _ _ => [0, 2, 3, 4, 5]
  | .setRL _ _ _ _ => [0, 2, 3, 4, 5]
  | .setRX0 _ _ _ _ => [2, 3]
  | .setRX3 _ _ _ => [2, 3]
  | .setA3 _ => [4]
  | .setA4 _ => [4]
  | .setA5 _ => [2]
  | .setA6 _ => [6]
  | .setA7 _ => [6]
  | .setA8 _ => [4]
  | .count => [0]
  | .rotate _ => [0, 4]
  | .write => [0, 7]

end Sys2Proof

namespace Sys2Proof.Machine

/-- A good state: an instance exists (`N >= 1`, 00_scope.md R12), BUF is in canonical form and lists no offset outside
`0 .. L-1` (10_state.md R21), and under the reset byte 0x88 every byte written is a canonical byte (R25). -/
def State.Inv (s : State) : Prop :=
  1 ≤ s.pixelCount ∧ Memory.wf s.resetByte.byte s.mem ∧ (∀ c ∈ s.mem, c.1 < s.length) ∧
    (s.resetByte = .x88 → ∀ c ∈ s.mem, canonicalByte c.2 = true)

/-- The transport answers the next Tx: what has been supplied for it is an answer (the fairness premise of
70_reset_and_hazards.md R235; an answer not supplied is drawn). -/
def State.transportAnswers (s : State) : Prop := s.txs.head? ≠ some .silent

/-- The response to the command is `r`, the step wrote at most BUF, and it emitted nothing else. -/
def State.writesOnly (s t : State) (r : Response) : Prop :=
  t = { s with mem := t.mem, trace := s.trace ++ [.response r] }

/-- Every byte of BUF outside the offsets `lo .. hi-1` reads as before. -/
def State.keepsOutside (s t : State) (lo hi : Nat) : Prop := ∀ a, a < lo ∨ hi ≤ a → t.byteAt a = s.byteAt a

/-- The three cells of a pixel in channel order. -/
def State.pixel (s : State) (i : Nat) : List Byte := [s.cell i 0, s.cell i 1, s.cell i 2]

/-- The cells of `k` pixels from pixel `a` on, ascending (42_pixel_buffer.md R142). -/
def State.pixels (s : State) (a k : Nat) : List Byte := (List.range k).flatMap fun j => s.pixel (a + j)

/-- The slot of pixel `i` holds the expansion of a triple (20_memory.md R41). -/
def State.holdsTriple (s : State) (i : Nat) (v : Triple) : Prop :=
  ∀ c < 3, s.groupAt (goff i c) = expand (v.channel c)

/-- The pixel a valid index names: a negative index has `N` added once (41_index_resolver.md R121). -/
def pixelOf (n : Nat) (p : Int) : Nat := (if p < 0 then p + n else p).toNat

/-- The valid pixel indices, `-N .. N-1` (R121). -/
def validIndex (n : Nat) (p : Int) : Prop := -(n : Int) ≤ p ∧ p < n

/-- The codec table as numbers, `T[0b00] = 0x88` and so on (40_codec.md R101). -/
def tableNumber : Nat → Nat
  | 0 => 0x88
  | 1 => 0x8C
  | 2 => 0xC8
  | _ => 0xCC

/-- A range bound with its default and its negative offset, not clamped (R128). -/
def boundValue (n : Nat) (x : Option Int) (default : Int) : Int :=
  match x with
  | none => default
  | some z => if z < 0 then z + n else z

/-- Pixel `i` of the buffer lies between the bounds of a range (R128). -/
def inRange (n : Nat) (start stop : Option Int) (i : Nat) : Prop :=
  i < n ∧ boundValue n start 0 ≤ i ∧ (i : Int) < boundValue n stop n

/-- The step of a range is 1 or absent (R127). -/
def stepIsOne (step : Option Int) : Prop := step = none ∨ step = some 1

/-- What is wrong with one component as a channel value (42_pixel_buffer.md R144). -/
def componentError : Comp → Option ErrorKind
  | .nonInt => some .typeMismatch
  | .int v => if 0 ≤ v ∧ v ≤ 255 then none else some .valueOutOfDomain

/-- What is wrong with a sequence as a triple: its length, then the first bad component (R144). -/
def tripleError (xs : List Comp) : Option ErrorKind :=
  if xs.length = 3 then xs.findSome? componentError else some .shapeMismatch

/-- A triple of channel values as a level-1 sequence. -/
def Triple.comps (v : Triple) : List Comp := [.int v.c0.toNat, .int v.c1.toNat, .int v.c2.toNat]

/-- The events that a step from `s` to `t` emitted. -/
def State.emitted (s t : State) : List Event := t.trace.drop s.trace.length

/-- The event is a Tx. -/
def Event.isTx : Event → Bool
  | .tx _ => true
  | .response _ => false

/-- A move that the host may make (70_reset_and_hazards.md R232): a word sequence that is a command, where the binary
interface serves the instance; any request; RST. -/
def HostMove.legal (n : Nat) : HostMove → Bool
  | .command words => decide (n ≤ Config.maxPixels) && (decode words != .tooShort) && (decode words != .tooLong)
  | .request _ => true
  | .reset => true

/-- A move that is a WRITE. -/
def HostMove.isWrite : HostMove → Bool
  | .command words => decode words == .instr .write
  | .request r => r == .write
  | .reset => false

/-- A run of level-1 requests, one after the other, stopping at the first fault or refusal (10_state.md R26). -/
def performAll : List Request → State → Out
  | [], s => .next s
  | r :: rs, s =>
    match perform r s with
    | .next t => performAll rs t
    | .fault f => .fault f
    | .refused x => .refused x

end Sys2Proof.Machine
end

