-- ==== Sys2Proof/Certificates/Slice0/Obligations.lean ====
section
/-! DEFINITION. The statements for the provers. Each docstring says which rule of spec/ it formalises; where a clause rests
on a decision of the spec (D<n>) or on a log entry of the model, it says so. `s.emit (.response r)` is the state `s` with
one more response and nothing else changed, so an equation with it is a whole frame. -/

open Sys2Proof Sys2Proof.Machine

/-! ## The codec -/

/-- R106: `compress(expand(x)) == x`, and byte `k` of `expand(x)` carries bits `7-2k` and `6-2k` of `x` at its bits 6 and 2. -/
def Obligations.CompressUndoesExpand : Prop :=
  ∀ v : Byte, compress (expand v) = v ∧
    ∀ k < 4, ((expand v).bytes.getD k 0).getLsbD 6 = v.getLsbD (7 - 2 * k) ∧
      ((expand v).bytes.getD k 0).getLsbD 2 = v.getLsbD (6 - 2 * k)

/-- R103: the table byte of a pair is `1 h 0 0 1 l 0 0`, equivalently `0x88 | h << 6 | l << 2`; its high nibble carries `h`
and its low nibble `l`, `1000` for 0 and `1100` for 1. -/
def Obligations.TableByteStructure : Prop :=
  ∀ p : BitVec 2,
    (List.range 8).map (fun k => (tableByte p).getLsbD (7 - k)) =
      [true, p.getLsbD 1, false, false, true, p.getLsbD 0, false, false] ∧
    tableByte p = 0x88 ||| ((BitVec.ofBool (p.getLsbD 1)).setWidth 8 <<< 6) |||
      ((BitVec.ofBool (p.getLsbD 0)).setWidth 8 <<< 2) ∧
    (tableByte p).extractLsb' 4 4 = (if p.getLsbD 1 then 0b1100#4 else 0b1000#4) ∧
    (tableByte p).extractLsb' 0 4 = (if p.getLsbD 0 then 0b1100#4 else 0b1000#4)

/-- 40_codec.md section 3, consequences (R108, an inference the spec marks as derived; the non-canonical half rests on
decision D17, log entry 7): `expand(compress(g)) = g` exactly for the canonical groups, the groups of `expand`. -/
def Obligations.ExpandOfCompressIffCanonical : Prop :=
  ∀ g : Group, (expand (compress g) = g ↔ g.canonical = true) ∧ ((∃ v, g = expand v) ↔ g.canonical = true)

/-- EXPAND (40_codec.md section 2; that it is a command is decision D30, its two errors are decisions D12 and D15): the
table bytes of the four pairs, most significant first, TypeMismatch unless the operand is an integer, ValueOutOfDomain
outside 0 .. 255; nothing else changes. -/
def Obligations.ExpandCommand : Prop :=
  ∀ (x : Value) (s : State),
    (∀ v : Int, x = .scalar (.int v) → 0 ≤ v → v ≤ 255 → ∃ g : Group,
      exec (.expand x) s = .next (s.emit (.response (.ok (.group g)))) ∧
      (Payload.group g).data = [tableNumber (v.toNat / 64), tableNumber (v.toNat / 16 % 4),
        tableNumber (v.toNat / 4 % 4), tableNumber (v.toNat % 4)]) ∧
    (∀ v : Int, x = .scalar (.int v) → v < 0 ∨ 255 < v →
      exec (.expand x) s = .next (s.emit (.response (.error .valueOutOfDomain)))) ∧
    ((∀ v : Int, x ≠ .scalar (.int v)) → exec (.expand x) s = .next (s.emit (.response (.error .typeMismatch))))

/-- COMPRESS (40_codec.md section 3; that it is a command is decision D30, its value on non-canonical bytes is decision
D17, log entry 7): bits 6 and 2 of each byte, the first byte's pair first; no error; nothing else changes. -/
def Obligations.CompressCommand : Prop :=
  ∀ (b0 b1 b2 b3 : Byte) (s : State), ∃ v : Byte,
    exec (.compress b0 b1 b2 b3) s = .next (s.emit (.response (.ok (.values [v])))) ∧
    v.toNat = (b0.getLsbD 6).toNat * 128 + (b0.getLsbD 2).toNat * 64 + (b1.getLsbD 6).toNat * 32 +
      (b1.getLsbD 2).toNat * 16 + (b2.getLsbD 6).toNat * 8 + (b2.getLsbD 2).toNat * 4 + (b3.getLsbD 6).toNat * 2 +
      (b3.getLsbD 2).toNat

/-! ## Address resolution -/

/-- R121: the valid indices are exactly `-N .. N-1`; a negative one names the pixel with `N` added once; every other
integer is OutOfRange; a NonInt is TypeMismatch; `-j` behaves as `N - j`. -/
def Obligations.IndexNamesPixel : Prop :=
  ∀ (n : Nat) (p : Int),
    (0 ≤ p → p < n → resolve n [.idx (.int p)] = .ok (.single p.toNat)) ∧
    (-(n : Int) ≤ p → p < 0 → resolve n [.idx (.int p)] = .ok (.single (p + n).toNat)) ∧
    (p < -(n : Int) ∨ (n : Int) ≤ p → resolve n [.idx (.int p)] = .error .outOfRange) ∧
    resolve n [.idx .nonInt] = .error .typeMismatch ∧
    (∀ j : Nat, 1 ≤ j → j ≤ n → resolve n [.idx (.int (-(j : Int)))] = resolve n [.idx (.int ((n : Int) - j))])

/-- R123 and R125: a pair's pixel follows the single-index rule, its channel must satisfy `0 <= channel < 3` and has no
negative alias, both else OutOfRange; a pair with no range and a NonInt component is TypeMismatch before any bound. -/
def Obligations.PairNamesCell : Prop :=
  ∀ (n : Nat) (p c : Int),
    (validIndex n p → 0 ≤ c → c < 3 →
      resolve n [.idx (.int p), .idx (.int c)] = .ok (.paired (pixelOf n p) c.toNat)) ∧
    (¬(validIndex n p ∧ 0 ≤ c ∧ c < 3) → resolve n [.idx (.int p), .idx (.int c)] = .error .outOfRange) ∧
    (∀ d : Comp, resolve n [.idx .nonInt, .idx d] = .error .typeMismatch ∧
      resolve n [.idx d, .idx .nonInt] = .error .typeMismatch)

/-- Malformed addresses (41_index_resolver.md sections 3 to 5; the zero-dimension case, the precedence of a range
component and the NonInt bound are decisions D14 and D15): the number of dimensions is judged first, then a range in a
pair, then a NonInt bound, then the step. -/
def Obligations.MalformedAddressesRejected : Prop :=
  ∀ (n : Nat) (addr : Addr),
    (addr.length = 0 ∨ 2 < addr.length → resolve n addr = .error .dimensionality) ∧
    (addr.length = 2 → addr.any Dim.isRange = true → resolve n addr = .error .unsupportedOperation) ∧
    (∀ start stop step : Option Comp, addr = [.rng start stop step] →
      (start = some .nonInt ∨ stop = some .nonInt ∨ step = some .nonInt → resolve n addr = .error .typeMismatch)) ∧
    (∀ (start stop : Option Int) (q : Int), addr = rangeAddr start stop (some q) → q ≠ 1 →
      resolve n addr = .error .unsupportedOperation)

/-- The address classes (30_encoding.md level 2, table of AK, decision D7): every address of one of the classes 3 to 8
has the same outcome, whichever member it is, and classes 0 to 2 resolve to their own kind or end in their own error. -/
def Obligations.AddressClassOutcome : Prop :=
  ∀ (n : Nat) (addr : Addr),
    (Addr.ak addr = 0 → resolve n addr = .error .outOfRange ∨ ∃ i, resolve n addr = .ok (.single i)) ∧
    (Addr.ak addr = 1 → resolve n addr = .error .outOfRange ∨ ∃ i c, resolve n addr = .ok (.paired i c)) ∧
    (Addr.ak addr = 2 → resolve n addr = .error .unsupportedOperation ∨ ∃ a b, resolve n addr = .ok (.range a b)) ∧
    (Addr.ak addr = 3 ∨ Addr.ak addr = 4 ∨ Addr.ak addr = 8 → resolve n addr = .error .typeMismatch) ∧
    (Addr.ak addr = 5 → resolve n addr = .error .unsupportedOperation) ∧
    (Addr.ak addr = 6 ∨ Addr.ak addr = 7 → resolve n addr = .error .dimensionality) ∧
    Addr.ak addr ≤ 8

/-- Resolved addresses lie inside the buffer (41_index_resolver.md sections 1 and 6). -/
def Obligations.ResolvedInsideBuffer : Prop :=
  ∀ (n : Nat) (addr : Addr),
    (∀ i, resolve n addr = .ok (.single i) → i < n ∧ soff i + 12 ≤ 12 * n) ∧
    (∀ i c, resolve n addr = .ok (.paired i c) → i < n ∧ c < 3 ∧ goff i c + 4 ≤ 12 * n) ∧
    (∀ a b, resolve n addr = .ok (.range a b) → a ≤ b ∧ b ≤ n)

/-- Range bounds (41_index_resolver.md section 5; the clamping is decision D13, log entry 10): the range addresses exactly
the pixels of the buffer that lie between the bounds, each with its default and its negative offset. -/
def Obligations.RangeAddressesPixels : Prop :=
  ∀ (n : Nat) (start stop : Option Int),
    (normRange n start stop).1 ≤ (normRange n start stop).2 ∧ (normRange n start stop).2 ≤ n ∧
    ∀ i : Nat, ((normRange n start stop).1 ≤ i ∧ i < (normRange n start stop).2) ↔ inRange n start stop i

/-! ## GET -/

/-- GET.P (42_pixel_buffer.md section 1): the three cells of the pixel in channel order, or OutOfRange; nothing else
changes. -/
def Obligations.GetPixelReads : Prop :=
  ∀ (p : Int) (s : State),
    (validIndex s.pixelCount p → exec (.getP p) s = .next (s.emit (.response (.ok (.values
      [s.cell (pixelOf s.pixelCount p) 0, s.cell (pixelOf s.pixelCount p) 1, s.cell (pixelOf s.pixelCount p) 2]))))) ∧
    (¬validIndex s.pixelCount p → exec (.getP p) s = .next (s.emit (.response (.error .outOfRange))))

/-- GET.C (42_pixel_buffer.md section 1): the one cell, or OutOfRange; nothing else changes. -/
def Obligations.GetChannelReads : Prop :=
  ∀ (p c : Int) (s : State),
    (validIndex s.pixelCount p → 0 ≤ c → c < 3 → exec (.getC p c) s =
      .next (s.emit (.response (.ok (.values [s.cell (pixelOf s.pixelCount p) c.toNat]))))) ∧
    (¬(validIndex s.pixelCount p ∧ 0 ≤ c ∧ c < 3) →
      exec (.getC p c) s = .next (s.emit (.response (.error .outOfRange))))

/-- GET.R (42_pixel_buffer.md section 1): the cells of the pixels of the range, one triple per pixel in ascending order,
and nothing for an empty range; nothing else changes. The range is that of decision D13 (log entry 10). -/
def Obligations.GetRangeReads : Prop :=
  ∀ (start stop step : Option Int) (s : State), stepIsOne step → ∃ is : List Nat,
    is.Pairwise (· < ·) ∧ (∀ i, i ∈ is ↔ inRange s.pixelCount start stop i) ∧
    exec (.getR start stop step) s = .next (s.emit (.response (.ok (.values
      (is.flatMap fun i => [s.cell i 0, s.cell i 1, s.cell i 2])))))

/-- A step other than 1 (41_index_resolver.md section 5; that it is judged before the value is decision D10): every range
form ends in UnsupportedOperation, whatever its bounds and its value; nothing else changes. -/
def Obligations.StepOtherThanOne : Prop :=
  ∀ (start stop step : Option Int) (xs : List Comp) (es : List (List Comp)) (v : Int) (s : State), ¬stepIsOne step →
    exec (.getR start stop step) s = .next (s.emit (.response (.error .unsupportedOperation))) ∧
    exec (.setRB start stop step xs) s = .next (s.emit (.response (.error .unsupportedOperation))) ∧
    exec (.setRL start stop step es) s = .next (s.emit (.response (.error .unsupportedOperation))) ∧
    exec (.setRX0 start stop step v) s = .next (s.emit (.response (.error .unsupportedOperation))) ∧
    exec (.setRX3 start stop step) s = .next (s.emit (.response (.error .unsupportedOperation)))

/-- GET.A3 to GET.A8 and SET.A3 to SET.A8 (30_encoding.md level 2, table of AK, decision D7): the command IS its address
error, whatever the value of a SET; nothing else changes. -/
def Obligations.AddressErrorForms : Prop :=
  ∀ (v : Value) (s : State),
    exec .getA3 s = .next (s.emit (.response (.error .typeMismatch))) ∧
    exec .getA4 s = .next (s.emit (.response (.error .typeMismatch))) ∧
    exec .getA5 s = .next (s.emit (.response (.error .unsupportedOperation))) ∧
    exec .getA6 s = .next (s.emit (.response (.error .dimensionality))) ∧
    exec .getA7 s = .next (s.emit (.response (.error .dimensionality))) ∧
    exec .getA8 s = .next (s.emit (.response (.error .typeMismatch))) ∧
    exec (.setA3 v) s = .next (s.emit (.response (.error .typeMismatch))) ∧
    exec (.setA4 v) s = .next (s.emit (.response (.error .typeMismatch))) ∧
    exec (.setA5 v) s = .next (s.emit (.response (.error .unsupportedOperation))) ∧
    exec (.setA6 v) s = .next (s.emit (.response (.error .dimensionality))) ∧
    exec (.setA7 v) s = .next (s.emit (.response (.error .dimensionality))) ∧
    exec (.setA8 v) s = .next (s.emit (.response (.error .typeMismatch)))

/-! ## SET -/

/-- SET.P (42_pixel_buffer.md section 3): the slot of the pixel takes the expansions of the three values, the response is
OK and empty, every other byte and every other piece of state stays. -/
def Obligations.SetPixelWrites : Prop :=
  ∀ (p : Int) (v : Triple) (s : State), validIndex s.pixelCount p → ∃ t,
    exec (.setP p (.seq v.comps)) s = .next t ∧ s.writesOnly t (.ok .empty) ∧
    t.holdsTriple (pixelOf s.pixelCount p) v ∧
    s.keepsOutside t (12 * pixelOf s.pixelCount p) (12 * pixelOf s.pixelCount p + 12)

/-- SET.P's errors (42_pixel_buffer.md sections 2 and 3; the order of checks and the error for a scalar or a list are
decisions D10 and D12, log entry 8): the index, then the kind of the value, then the triple; nothing else changes. -/
def Obligations.SetPixelErrors : Prop :=
  ∀ (p : Int) (v : Value) (s : State),
    (¬validIndex s.pixelCount p → exec (.setP p v) s = .next (s.emit (.response (.error .outOfRange)))) ∧
    (validIndex s.pixelCount p → (∀ xs, v ≠ .seq xs) →
      exec (.setP p v) s = .next (s.emit (.response (.error .shapeMismatch)))) ∧
    (∀ (xs : List Comp) (e : ErrorKind), validIndex s.pixelCount p → v = .seq xs → tripleError xs = some e →
      exec (.setP p v) s = .next (s.emit (.response (.error e))))

/-- SET.C (42_pixel_buffer.md section 3): the group of the cell takes the expansion of the value, the response is OK and
empty, every other byte and every other piece of state stays. -/
def Obligations.SetChannelWrites : Prop :=
  ∀ (p c : Int) (v : Byte) (s : State), validIndex s.pixelCount p → 0 ≤ c → c < 3 → ∃ t,
    exec (.setC p c (.scalar (.int v.toNat))) s = .next t ∧ s.writesOnly t (.ok .empty) ∧
    t.groupAt (12 * pixelOf s.pixelCount p + 4 * c.toNat) = expand v ∧
    s.keepsOutside t (12 * pixelOf s.pixelCount p + 4 * c.toNat) (12 * pixelOf s.pixelCount p + 4 * c.toNat + 4)

/-- SET.C's errors (42_pixel_buffer.md section 3; the order of checks and the error for a sequence are decision D10, log
entry 8): the address, then the kind of the value, then its domain; nothing else changes. -/
def Obligations.SetChannelErrors : Prop :=
  ∀ (p c : Int) (v : Value) (s : State),
    (¬(validIndex s.pixelCount p ∧ 0 ≤ c ∧ c < 3) →
      exec (.setC p c v) s = .next (s.emit (.response (.error .outOfRange)))) ∧
    (validIndex s.pixelCount p → 0 ≤ c → c < 3 → (∀ z : Int, v ≠ .scalar (.int z)) →
      exec (.setC p c v) s = .next (s.emit (.response (.error .typeMismatch)))) ∧
    (∀ z : Int, validIndex s.pixelCount p → 0 ≤ c → c < 3 → v = .scalar (.int z) → z < 0 ∨ 255 < z →
      exec (.setC p c v) s = .next (s.emit (.response (.error .valueOutOfDomain))))

/-- SET.RB (42_pixel_buffer.md section 4): every slot of the range takes the triple, the response is OK and empty, every
byte outside those slots and every other piece of state stays; an empty range writes nothing. The range is that of
decision D13 (log entry 10). -/
def Obligations.SetBroadcastWrites : Prop :=
  ∀ (start stop step : Option Int) (v : Triple) (s : State), stepIsOne step → ∃ t,
    exec (.setRB start stop step v.comps) s = .next t ∧ s.writesOnly t (.ok .empty) ∧
    (∀ i, inRange s.pixelCount start stop i → t.holdsTriple i v) ∧
    (∀ a, (∀ i, inRange s.pixelCount start stop i → a < 12 * i ∨ 12 * i + 12 ≤ a) → t.byteAt a = s.byteAt a) ∧
    ((∀ i, ¬inRange s.pixelCount start stop i) → t.mem = s.mem)

/-- SET.RL (42_pixel_buffer.md section 4): as many triples as the range has pixels go to its pixels in order, the response
is OK and empty, every byte outside those slots and every other piece of state stays. The range is that of decision D13
(log entry 10). -/
def Obligations.SetListWrites : Prop :=
  ∀ (start stop step : Option Int) (vs : List Triple) (is : List Nat) (s : State), stepIsOne step →
    is.Pairwise (· < ·) → (∀ i, i ∈ is ↔ inRange s.pixelCount start stop i) → vs.length = is.length → ∃ t,
    exec (.setRL start stop step (vs.map Triple.comps)) s = .next t ∧ s.writesOnly t (.ok .empty) ∧
    (∀ iv ∈ is.zip vs, t.holdsTriple iv.1 iv.2) ∧
    (∀ a, (∀ i ∈ is, a < 12 * i ∨ 12 * i + 12 ≤ a) → t.byteAt a = s.byteAt a)

/-- The value errors of SET.RB and SET.RL (42_pixel_buffer.md section 4; the order of checks, the validation on an empty
range and the absence of partial writes are decisions D10, D11, D12, D16, log entries 8 and 9, and the range whose pixels are counted is that of decision D13, log
entry 10): a broadcast's triple is
judged even for an empty range; a list's length is judged first, then its elements in order; nothing else changes. -/
def Obligations.RangeValueErrors : Prop :=
  ∀ (start stop step : Option Int) (xs : List Comp) (es : List (List Comp)) (e : ErrorKind) (is : List Nat) (s : State),
    stepIsOne step → is.Pairwise (· < ·) → (∀ i, i ∈ is ↔ inRange s.pixelCount start stop i) →
    (tripleError xs = some e →
      exec (.setRB start stop step xs) s = .next (s.emit (.response (.error e)))) ∧
    (es.length ≠ is.length →
      exec (.setRL start stop step es) s = .next (s.emit (.response (.error .shapeMismatch)))) ∧
    (es.length = is.length → es.findSome? tripleError = some e →
      exec (.setRL start stop step es) s = .next (s.emit (.response (.error e))))

/-- SET.RX0 and SET.RX3 (42_pixel_buffer.md section 4, decision D10): a range SET with a scalar IS ShapeMismatch, once its
step is 1; nothing else changes. -/
def Obligations.RangeScalarIsShapeMismatch : Prop :=
  ∀ (start stop step : Option Int) (v : Int) (s : State), stepIsOne step →
    exec (.setRX0 start stop step v) s = .next (s.emit (.response (.error .shapeMismatch))) ∧
    exec (.setRX3 start stop step) s = .next (s.emit (.response (.error .shapeMismatch)))

/-! ## Reading back what was written -/

/-- 42_pixel_buffer.md section 3, read-back of a pixel (which the spec marks as derived): after `set(i, (a,b,c))`,
`get(i) == (a,b,c)` for every valid index, and every other pixel reads as before. -/
def Obligations.PixelReadBack : Prop :=
  ∀ (p q : Int) (v : Triple) (s : State), validIndex s.pixelCount p → validIndex s.pixelCount q → ∃ t,
    exec (.setP p (.seq v.comps)) s = .next t ∧
    exec (.getP p) t = .next (t.emit (.response (.ok (.values [v.c0, v.c1, v.c2])))) ∧
    (pixelOf s.pixelCount q ≠ pixelOf s.pixelCount p → ∃ vs,
      exec (.getP q) s = .next (s.emit (.response (.ok (.values vs)))) ∧
      exec (.getP q) t = .next (t.emit (.response (.ok (.values vs)))))

/-- 42_pixel_buffer.md section 3, read-back and isolation of a channel (which the spec marks as derived): after
`set(i, ch, v)`, `get(i, ch) == v`; the other channels of the pixel read as before, their bytes are not
written, and no other slot is touched. -/
def Obligations.ChannelReadBack : Prop :=
  ∀ (p c : Int) (v : Byte) (s : State), validIndex s.pixelCount p → 0 ≤ c → c < 3 → ∃ t,
    exec (.setC p c (.scalar (.int v.toNat))) s = .next t ∧
    exec (.getC p c) t = .next (t.emit (.response (.ok (.values [v])))) ∧
    (∀ d : Int, 0 ≤ d → d < 3 → d ≠ c → ∃ w,
      exec (.getC p d) s = .next (s.emit (.response (.ok (.values [w])))) ∧
      exec (.getC p d) t = .next (t.emit (.response (.ok (.values [w]))))) ∧
    (∀ (i k : Nat), k < 12 → (i ≠ pixelOf s.pixelCount p ∨ k / 4 ≠ c.toNat) →
      t.byteAt (12 * i + k) = s.byteAt (12 * i + k))

/-- 42_pixel_buffer.md section 4, the tile copy's equivalence (the range is that of decision D13, log entry 10): after a
broadcast the end state is that of expanding the triple into every slot of the range independently: every
group of every slot of the range holds the expansion of its channel's value, and no other byte changes; reading the range
yields the triple for every pixel. -/
def Obligations.BroadcastReadBack : Prop :=
  ∀ (start stop step : Option Int) (v : Triple) (s : State), stepIsOne step → ∃ (t : State) (k : Nat),
    exec (.setRB start stop step v.comps) s = .next t ∧ s.writesOnly t (.ok .empty) ∧
    (∀ i, inRange s.pixelCount start stop i → ∀ c < 3, t.groupAt (12 * i + 4 * c) = expand (v.channel c)) ∧
    (∀ a, (∀ i, inRange s.pixelCount start stop i → a < 12 * i ∨ 12 * i + 12 ≤ a) → t.byteAt a = s.byteAt a) ∧
    exec (.getR start stop step) t =
      .next (t.emit (.response (.ok (.values (List.replicate k [v.c0, v.c1, v.c2]).flatten)))) ∧
    k = ((normRange s.pixelCount start stop).2 - (normRange s.pixelCount start stop).1)

/-- 42_pixel_buffer.md section 4, read-back of a list (which the spec marks as derived): after
`set(slice, list_of_triples)`, `get(slice) == list_of_triples`, order preserved, for a list as long as the range, which is
that of decision D13 (log entry 10). -/
def Obligations.ListReadBack : Prop :=
  ∀ (start stop step : Option Int) (vs : List Triple) (s : State), stepIsOne step →
    vs.length = (normRange s.pixelCount start stop).2 - (normRange s.pixelCount start stop).1 → ∃ t,
    exec (.setRL start stop step (vs.map Triple.comps)) s = .next t ∧
    exec (.getR start stop step) t =
      .next (t.emit (.response (.ok (.values (vs.flatMap fun v => [v.c0, v.c1, v.c2])))))

/-- R156: COUNT responds with `N`; no state is written and no error is raised; it is the only access to the register
PIXEL_COUNT: no other instruction and no other request answers with it. -/
def Obligations.CountAnswersN : Prop :=
  (∀ s : State, exec .count s = .next (s.emit (.response (.ok (.count s.pixelCount)))) ∧
    (Response.ok (.count s.pixelCount)).data = [s.pixelCount]) ∧
  (∀ (i : Instr) (s t : State) (n : Nat), i ≠ .count → exec i s = .next t →
    .response (.ok (.count n)) ∉ s.emitted t) ∧
  (∀ (r : Request) (s t : State) (n : Nat), r ≠ .count → perform r s = .next t →
    .response (.ok (.count n)) ∉ s.emitted t)

/-! ## ROTATE -/

/-- R171: the pixel at position `i` before is at position `(i + count) mod N` after, for every integer count; in bytes,
`BUF_after[(p + c) mod L] = BUF_before[p]`, equivalently `BUF_after[q] = BUF_before[(q - c) mod L]`; nothing outside BUF and
no other piece of state changes. -/
def Obligations.RotateMovesEveryByte : Prop :=
  ∀ (k : Int) (s : State), 1 ≤ s.pixelCount → ∃ (t : State) (c : Nat),
    exec (.rotate (.scalar (.int k))) s = .next t ∧ s.writesOnly t (.ok .empty) ∧
    (c : Int) = 12 * (k % s.pixelCount) ∧
    (∀ p < s.length, t.byteAt ((p + c) % s.length) = s.byteAt p) ∧
    (∀ q < s.length, t.byteAt q = s.byteAt (((q : Int) - c) % s.length).toNat) ∧
    (∀ i < s.pixelCount, ∀ j < 12,
      t.byteAt (12 * (((i : Int) + k) % s.pixelCount).toNat + j) = s.byteAt (12 * i + j)) ∧
    (∀ i < s.pixelCount, ∀ ch < 3, t.cell (((i : Int) + k) % s.pixelCount).toNat ch = s.cell i ch) ∧
    (∀ a, s.length ≤ a → t.byteAt a = s.byteAt a)

/-- ROTATE's one error (43_rotator.md section 1, decision D15): TypeMismatch unless the count is an integer; nothing else
changes. -/
def Obligations.RotateRejectsNonInteger : Prop :=
  ∀ (v : Value) (s : State), (∀ k : Int, v ≠ .scalar (.int k)) →
    exec (.rotate v) s = .next (s.emit (.response (.error .typeMismatch)))

/-- The laws of rotation (43_rotator.md section 2): every multiple of `N` is the identity; rotating by `k` and then by
`N - k`, or by `-k`, restores the buffer; rotations compose additively; a count acts as its remainder; with `N = 1`
every rotation is the identity; uniform content is invariant. The equations are between whole buffers. -/
def Obligations.RotationLaws : Prop :=
  ∀ (s : State), s.Inv →
    (∀ m : Int, (s.rotated (m * s.pixelCount)).mem = s.mem) ∧
    (∀ k : Int, ((s.rotated k).rotated (s.pixelCount - k)).mem = s.mem ∧ ((s.rotated k).rotated (-k)).mem = s.mem) ∧
    (∀ j k : Int, ((s.rotated j).rotated k).mem = (s.rotated (j + k)).mem) ∧
    (∀ k : Int, (s.rotated k).mem = (s.rotated (k % s.pixelCount)).mem) ∧
    (s.pixelCount = 1 → ∀ k : Int, (s.rotated k).mem = s.mem) ∧
    (∀ (v : Triple), (∀ i < s.pixelCount, s.holdsTriple i v) → ∀ k : Int, ∀ i < s.pixelCount,
      (s.rotated k).holdsTriple i v) ∧
    (∀ k : Int, exec (.rotate (.scalar (.int k))) s = .next ((s.rotated k).emit (.response (.ok .empty))))

/-- The source's three-step mechanism (43_rotator.md section 1, equivalence with the snapshot form, which the spec marks
as derived): save the last `c` bytes, move the rest forward, put the saved bytes in front gives ROTATE's state. -/
def Obligations.ThreeStepRotationAgrees : Prop :=
  ∀ (k : Int) (s : State), s.Inv → 12 * rotateCount s.pixelCount k ≠ 0 →
    s.rotateThreeStep (12 * rotateCount s.pixelCount k) = .ok (s.rotated k)

/-! ## WRITE and the transport -/

/-- WRITE (44_transport.md section 1; the shape of the answer is decision D20, where it is taken from is log entry 4, and
that a silent transport is a fault is log entry 5): with an answer supplied on TXS, or drawn as a free value when none is, it
hands over BUF and ends with the answer propagated; BUF, `N` and everything else stay. -/
def Obligations.WriteCompletes : Prop :=
  ∀ s : State,
    (∀ info rest, s.txs = .answer 0 info :: rest → exec .write s = .next { s with
      txs := rest, trace := s.trace ++ [.tx (s.bytes 0 s.length), .response (.ok .empty)] }) ∧
    (∀ info rest, s.txs = .answer 1 info :: rest → exec .write s = .next { s with
      txs := rest, trace := s.trace ++ [.tx (s.bytes 0 s.length), .response (.error (.transportFailure info))] }) ∧
    (s.txs = [] → exec .write s = .next { s with
      draws := s.draws + 1,
      trace := s.trace ++ [.tx (s.bytes 0 s.length), .response (match Config.transportAnswer s.draws with
        | .ok => .ok .empty
        | .fail info => .error (.transportFailure info))] }) ∧
    (∀ rest, s.txs = .silent :: rest → exec .write s = .fault .transportSilent)

/-- The binary interface to the transport (44_transport.md section 3; its shape is decisions D2 and D20, that the answers to
come stand in a list is log entry 4): TX carries the `12 * N` bytes of the one Tx event in order and nothing else; TXS carries
one bit, 0 for `ok` and 1 for `fail`, and a word that is meaningful only with `fail`; every answer has a spelling on TXS; and
a WRITE ends with the answer that the bit and the word spell. -/
def Obligations.TransportPorts : Prop :=
  (∀ s : State, s.transportAnswers → ∃ t, exec .write s = .next t ∧ t.txPort = s.txPort ++ s.bytes 0 s.length ∧
    (s.bytes 0 s.length).length = 12 * s.pixelCount) ∧
  (∀ info info' : Word, readTxs 0 info = .ok ∧ readTxs 1 info = .fail info ∧ readTxs 0 info = readTxs 0 info') ∧
  (∀ a : TransportAnswer, ∃ fail info, txsSignal a = .answer fail info ∧ readTxs fail info = a) ∧
  (∀ (s : State) (fail : BitVec 1) (info : Word) (rest : List TxsInput), s.txs = .answer fail info :: rest →
    ∃ t, exec .write s = .next t ∧ t.txs = rest ∧ t.draws = s.draws ∧
      t.rspPort = s.rspPort ++ (if fail = 1 then [7, 1, info] else [0, 0]))

/-- R182: what a WRITE hands over is exactly the `12 * N` bytes of BUF at offsets `0, 1, …` in that order, so pixel 0 first,
channel 0 first, and the bytes of a group lowest offset first. -/
def Obligations.TransmittedBytesAreBuffer : Prop :=
  ∀ s : State, s.transportAnswers → ∃ t bytes r, exec .write s = .next t ∧
    t.trace = s.trace ++ [.tx bytes, .response r] ∧ bytes.length = 12 * s.pixelCount ∧
    (∀ k < 12 * s.pixelCount, bytes[k]? = some (s.byteAt k)) ∧
    (∀ i < s.pixelCount, ∀ c < 3, (bytes.drop (12 * i + 4 * c)).take 4 = (s.groupAt (12 * i + 4 * c)).bytes)

/-- R183: one WRITE causes exactly one Tx event, carrying all `L` bytes; no other command causes one; the block never
transmits on its own. -/
def Obligations.TxOnlyByWrite : Prop :=
  ∀ s t : State, step s = .next t →
    (s.emitted t).countP Event.isTx = (if (s.inputs.head?.any HostMove.isWrite) = true then 1 else 0) ∧
    ∀ bytes, .tx bytes ∈ s.emitted t → bytes = s.bytes 0 s.length ∧ bytes.length = s.length

/-! ## Whole-machine rules -/

/-- Errors write no state (60_exceptions.md section 3; for the multi-slot SETs this is decision D11, log entry 9): a move
that ends in an error leaves BUF and `N` as they were. -/
def Obligations.ErrorsWriteNothing : Prop :=
  ∀ (m : HostMove) (s t : State) (e : ErrorKind), runMove m s = .next t → .response (.error e) ∈ s.emitted t →
    t.mem = s.mem ∧ t.pixelCount = s.pixelCount ∧ t.resetByte = s.resetByte ∧ t.inputs = s.inputs

/-- The core responds exactly once per command (70_reset_and_hazards.md section 3, table of agents), and the response is
the last thing the command emits; RST has no response (log entry 14). -/
def Obligations.OneResponsePerCommand : Prop :=
  ∀ (m : HostMove) (s t : State), runMove m s = .next t →
    (m ≠ .reset → ∃ es r, t.trace = s.trace ++ es ++ [.response r] ∧ es.countP Event.isResponse = 0) ∧
    (m = .reset → t.trace = s.trace)

/-- `N` never changes (00_scope.md section 4, 10_state.md section 1), nor does the instance's reset byte; a step takes
exactly the oldest move and leaves the others (10_state.md section 4; that the moves to come are a list of the state is log
entry 3, and that a step with none pending leaves the state as it is is log entry 18). -/
def Obligations.InstanceConstant : Prop :=
  ∀ s t : State, step s = .next t →
    t.pixelCount = s.pixelCount ∧ t.resetByte = s.resetByte ∧ t.inputs = s.inputs.tail ∧
    s.trace <+: t.trace

/-- Who writes BUF (20_memory.md section 4, 10_state.md section 1): an instruction other than SET.P, SET.C, SET.RB, SET.RL
and ROTATE leaves every byte of BUF and every other piece of state but the ports' own alone. -/
def Obligations.ReadersLeaveBuffer : Prop :=
  ∀ (i : Instr) (s t : State), i.writesBuffer = false → exec i s = .next t →
    t.mem = s.mem ∧ t = { s with txs := t.txs, draws := t.draws, trace := t.trace } ∧
    (i ≠ .write → t.txs = s.txs ∧ t.draws = s.draws)

/-- Writes other than ROTATE are idempotent (20_memory.md section 4): repeating a SET answers the same and leaves the same
buffer. -/
def Obligations.SetIsIdempotent : Prop :=
  ∀ (i : Instr) (s : State), s.Inv → i.isSet = true → ∃ t u r,
    exec i s = .next t ∧ exec i t = .next u ∧ u.mem = t.mem ∧
    t.trace = s.trace ++ [.response r] ∧ u.trace = t.trace ++ [.response r]

/-- Which instruction can end with which status (60_exceptions.md section 1, last table, which the spec marks as derived). -/
def Obligations.StatusesByInstruction : Prop :=
  ∀ (i : Instr) (s t : State), exec i s = .next t →
    ∃ r, t.trace.getLast? = some (.response r) ∧ r.code ∈ i.statusCodes

/-- The two levels agree (30_encoding.md sections "Level 1" and "Decoding to level 1", decision D6): every instruction does
what its level-1 request does, through `resolve` and the dispatch of GET and SET. -/
def Obligations.LevelsAgree : Prop :=
  ∀ (i : Instr) (s : State), exec i s = perform i.request s

/-- A step runs the decoded instruction (30_encoding.md section "Transactions", decision D6; 10_state.md section 4): the
oldest move is taken, and it runs at the state without it. A level-1 request runs the same way (log entry 3), for every
`N >= 1`; a binary command to an instance with `N > N_MAX` is refused, because the binary interface does not serve it
(00_scope.md section 4, decision D4, log entry 12). -/
def Obligations.StepRunsDecodedInstruction : Prop :=
  ∀ (s : State) (rest : List HostMove), 1 ≤ s.pixelCount →
    (∀ (words : List Word) (i : Instr), s.pixelCount ≤ Config.maxPixels → s.inputs = .command words :: rest →
      decode words = .instr i → step s = exec i { s with inputs := rest }) ∧
    (∀ r : Request, s.inputs = .request r :: rest → step s = perform r { s with inputs := rest }) ∧
    (∀ words : List Word, Config.maxPixels < s.pixelCount → s.inputs = .command words :: rest →
      step s = .refused .noBinaryInterface)

/-- An illegal header (30_encoding.md section "Reserved and illegal encodings", decisions D22 and D23): a one-word command
answered IllegalCommand with no state change; a word sequence of the wrong length is refused (log entry 11). -/
def Obligations.IllegalHeaderAnswered : Prop :=
  ∀ (s : State) (rest : List HostMove), 1 ≤ s.pixelCount → s.pixelCount ≤ Config.maxPixels →
    (∀ w : Word, s.inputs = .command [w] :: rest → decodeHeader w = none →
      step s = .next (State.emit { s with inputs := rest } (.response (.error .illegalCommand)))) ∧
    (∀ words : List Word, s.inputs = .command words :: rest → words.length ≠ commandLength words →
      step s = .refused .notACommand)

/-- Which headers are illegal (30_encoding.md sections "Header word" and "Reserved and illegal encodings", decisions D22
and D23), by the fields as the header word lays them out. -/
def Obligations.HeaderIllegalExactly : Prop :=
  ∀ w : Word, decodeHeader w = none ↔
    w.extractLsb' 0 15 ≠ 0 ∨ w.extractLsb' 24 8 = 0 ∨ 8 ≤ (w.extractLsb' 24 8).toNat ∨
    ((w.extractLsb' 24 8 = 3 ∨ w.extractLsb' 24 8 = 4) ∧
      (9 ≤ (w.extractLsb' 20 4).toNat ∨ (w.extractLsb' 20 4 ≠ 2 ∧ w.extractLsb' 17 3 ≠ 0))) ∨
    (w.extractLsb' 24 8 = 3 ∧ w.extractLsb' 15 2 ≠ 0) ∨
    ((w.extractLsb' 24 8 = 1 ∨ w.extractLsb' 24 8 = 6) ∧ (w.extractLsb' 20 4 ≠ 0 ∨ w.extractLsb' 17 3 ≠ 0)) ∨
    ((w.extractLsb' 24 8 = 2 ∨ w.extractLsb' 24 8 = 5 ∨ w.extractLsb' 24 8 = 7) ∧
      (w.extractLsb' 20 4 ≠ 0 ∨ w.extractLsb' 17 3 ≠ 0 ∨ w.extractLsb' 15 2 ≠ 0))

/-- The opcode table (30_encoding.md section "The opcode map in prose", decision D6): a header word is legal exactly when a
row admits it, no two rows admit one word, the row of an instruction's own mnemonic admits its header, and the legal
headers are 91 words. -/
def Obligations.OpcodeTableExact : Prop :=
  (∀ w : Word, (decodeHeader w).isSome = true ↔ ∃ r ∈ opcodeTable, r.admits w = true) ∧
  (∀ w : Word, opcodeTable.countP (fun r => r.admits w) ≤ 1) ∧
  (∀ i : Instr, ∃ r ∈ opcodeTable, r.mnemonic = i.mnemonic ∧ r.admits (encodeHeader i.header) = true) ∧
  allHeaders.length = 91 ∧ (allHeaders.map encodeHeader).Nodup ∧
  (∀ w : Word, (decodeHeader w).isSome = true ↔ w ∈ allHeaders.map encodeHeader)

/-- Decode and encode agree (30_encoding.md level 2, decision D23): every well-formed instruction, with every operand at
every value the encoding admits, is what its own words decode to. -/
def Obligations.DecodeOfEncode : Prop :=
  ∀ i : Instr, i.wf = true → decode (encode i) = .instr i

/-- Every legal command has one encoding (30_encoding.md level 2, decision D23): words that decode to an instruction are
that instruction's words, and it is well formed. -/
def Obligations.EncodeOfDecode : Prop :=
  ∀ (words : List Word) (i : Instr), decode words = .instr i → encode i = words ∧ i.wf = true

/-- The command length (30_encoding.md section "Command length", decisions D6 and D8): a function of the header and the
count words; a sequence of that length with a legal header is a command, whatever its operands, and no other is. -/
def Obligations.CommandLengthExact : Prop :=
  ∀ (h : Word) (ws : List Word),
    ((∃ i, decode (h :: ws) = .instr i) ↔
      (decodeHeader h).isSome = true ∧ (h :: ws).length = commandLength (h :: ws)) ∧
    (decode (h :: ws) = .illegalHeader ↔ decodeHeader h = none ∧ ws = []) ∧
    (decode (h :: ws) = .tooShort ↔ (h :: ws).length < commandLength (h :: ws)) ∧
    (decode (h :: ws) = .tooLong ↔ commandLength (h :: ws) < (h :: ws).length)

/-- Worked encodings of the spec (30_encoding.md section "Worked encodings", decision D6): one word sequence of each family
decodes to the instruction it stands for. -/
def Obligations.WordsOfTheSpec : Prop :=
  decode [0x01000000, 0x00000080] = .instr (.expand (.scalar (.int 128))) ∧
  decode [0x02000000, 0xC8888888] = .instr (.compress 0xC8 0x88 0x88 0x88) ∧
  decode [0x03000000, 0xFFFFFFFF] = .instr (.getP (-1)) ∧
  decode [0x03100000, 0x00000003, 0x00000002] = .instr (.getC 3 2) ∧
  decode [0x032C0000, 0x00000000, 0x00000004] = .instr (.getR (some 0) (some 4) none) ∧
  decode [0x03220000, 0x00000002] = .instr (.getR none none (some 2)) ∧
  decode [0x04008000, 1, 3, 0x80, 0, 0] = .instr (.setP 1 (.seq [.int 128, .int 0, .int 0])) ∧
  decode [0x042C8000, 0, 4, 3, 0, 0, 0x28] = .instr (.setRB (some 0) (some 4) none [.int 0, .int 0, .int 40]) ∧
  decode [0x042D0000, 0, 2, 1, 3, 1, 1, 1] = .instr (.setRL (some 0) (some 2) none [[.int 1, .int 1, .int 1]]) ∧
  decode [0x05000000] = .instr .count ∧
  decode [0x06000000, 0xFFFFFFFF] = .instr (.rotate (.scalar (.int (-1)))) ∧
  decode [0x07000000] = .instr .write

/-- Every step keeps a good state good (10_state.md sections 2 and 3): `N >= 1`, BUF canonical as data and inside
`0 .. L-1`, and under the reset byte 0x88 every byte of BUF a canonical byte. The canonical-content part is an inference
the spec marks as derived (R25). -/
def Obligations.StepKeepsGoodState : Prop :=
  ∀ s t : State, s.Inv → step s = .next t → t.Inv

/-- Every instance is good right after construction, and so is the model's reset state, whose `N` is the model's choice
(log entry 1). -/
def Obligations.ResetIsGood : Prop :=
  (∀ (n : Nat) (rb : ResetByte), 1 ≤ n → (State.init n rb).Inv) ∧ State.reset.Inv

/-- Reset (70_reset_and_hazards.md section 1; the byte value is decision D5, RST is decision D24, log entries 2 and 14; that
a cell of the reset byte 0x00 reads 0 is decision D17, log entry 7): every byte of BUF is the reset byte, every cell reads 0,
nothing has been emitted; RST refills BUF and keeps `N`, the transport's side and everything emitted. -/
def Obligations.ResetContents : Prop :=
  (∀ (n : Nat) (rb : ResetByte), (State.init n rb).pixelCount = n ∧ (State.init n rb).trace = [] ∧
    (∀ a, (State.init n rb).byteAt a = rb.byte) ∧ (∀ i c, (State.init n rb).cell i c = 0)) ∧
  (∀ (s : State) (rest : List HostMove), 1 ≤ s.pixelCount → s.inputs = .reset :: rest → ∃ t, step s = .next t ∧
    (∀ a, t.byteAt a = s.resetByte.byte) ∧ t = { s with mem := t.mem, inputs := rest })

/-- No move, no instance (60_exceptions.md section 7; 70_reset_and_hazards.md section 1, decision D4; log entries 12 and
18): with no move pending the block holds its state; construction with a pixel count that is not positive gives no
instance, and a step of a configuration with `N = 0` is refused. -/
def Obligations.IdleAndNoInstance : Prop :=
  (∀ s : State, 1 ≤ s.pixelCount → s.inputs = [] → step s = .next s) ∧
  (∀ (count : Int) (rb : ResetByte), count ≤ 0 → construct count rb = none) ∧
  (∀ (count : Int) (rb : ResetByte), 0 < count → ∃ s, construct count rb = some s ∧
    (s.pixelCount : Int) = count ∧ s.resetByte = rb ∧ s.mem = []) ∧
  (∀ s : State, s.pixelCount = 0 → step s = .refused .noInstance)

/-- Every operation runs to completion (20_memory.md section 4; 70_reset_and_hazards.md section 3, whose fairness premise
about the transport is `transportAnswers`): a step that serves a legal move answers a next state. -/
def Obligations.EveryCommandCompletes : Prop :=
  ∀ (s : State) (m : HostMove) (rest : List HostMove), 1 ≤ s.pixelCount → s.inputs = m :: rest →
    m.legal s.pixelCount = true → (m.isWrite = true → s.transportAnswers) → ∃ t, step s = .next t ∧ t.inputs = rest

/-- Two states with the same `N` and the same bytes of BUF are indistinguishable by any sequence of requests
(10_state.md section 10, which the spec marks as derived): with the same answers of the transport, the same is emitted and
the bytes stay the same. -/
def Obligations.Indistinguishable : Prop :=
  ∀ (rs : List Request) (s s' t : State), s'.pixelCount = s.pixelCount →
    (∀ a < s.length, s'.byteAt a = s.byteAt a) → s'.txs = s.txs → s'.draws = s.draws → s'.trace = s.trace →
    performAll rs s = .next t → ∃ t', performAll rs s' = .next t' ∧ t'.trace = t.trace ∧
      ∀ a < s.length, t'.byteAt a = t.byteAt a

/-- BUF is `12 * N` bytes and nothing outside it is touched (10_state.md section 2): a step keeps `L`, writes no offset
outside `0 .. L-1`, and never ends in an access to one. -/
def Obligations.NeverOutsideBuffer : Prop :=
  ∀ s : State, s.Inv →
    (∀ t, step s = .next t → t.length = s.length ∧ s.length = 12 * s.pixelCount ∧
      ∀ a, s.length ≤ a → t.byteAt a = s.byteAt a) ∧
    (∀ a, step s ≠ .fault (.offsetOutsideBuffer a))

/-- Response words (30_encoding.md sections "Level 1" and "Response words", 60_exceptions.md section 1; the codes and the
format are decision D9, EXPAND's packing is decision D25): the status word, DCOUNT, then the data words; the data words of a
success are channel values zero-extended one a word (COMPRESS, GET.P, GET.C, GET.R), EXPAND's four bytes in one word, `N`
(COUNT) or none (SET, ROTATE, WRITE); an error has none but TransportFailure, which has the transport's word; beside each its
level-1 data; the eight error codes; and no response of an instruction has more data words than DCOUNT can say. -/
def Obligations.ResponseWordsExact : Prop :=
  (∀ (i : Instr) (s t : State) (r : Response), s.pixelCount ≤ Config.maxPixels → exec i s = .next t →
    .response r ∈ s.emitted t → ∃ status dcount, r.words = status :: dcount :: r.dataWords ∧
      status.toNat = r.code ∧ r.code < 256 ∧ dcount.toNat = r.dataWords.length) ∧
  ((Response.ok .empty).words = [0, 0] ∧ (Response.ok .empty).data = []) ∧
  (∀ g : Group, (Response.ok (.group g)).words = [0, 1, g.b0 ++ g.b1 ++ g.b2 ++ g.b3] ∧
    (Response.ok (.group g)).data = [g.b0.toNat, g.b1.toNat, g.b2.toNat, g.b3.toNat]) ∧
  (∀ vs : List Byte, (Response.ok (.values vs)).words = [0, BitVec.ofNat 32 vs.length] ++ vs.map (fun v => 0#24 ++ v) ∧
    (Response.ok (.values vs)).data = vs.map (fun v => v.toNat)) ∧
  (∀ n : Nat, (Response.ok (.count n)).data = [n] ∧
    (n ≤ Config.maxPixels → (Response.ok (.count n)).words.map BitVec.toNat = [0, 1, n])) ∧
  (∀ (e : ErrorKind), (∀ info, e ≠ .transportFailure info) →
    (Response.error e).words = [BitVec.ofNat 32 e.code, 0] ∧ (Response.error e).data = []) ∧
  (∀ info, (Response.error (.transportFailure info)).words = [7, 1, info] ∧
    (Response.error (.transportFailure info)).data = [info.toNat]) ∧
  [ErrorKind.outOfRange, .unsupportedOperation, .shapeMismatch, .typeMismatch, .valueOutOfDomain, .dimensionality,
    .transportFailure 0, .illegalCommand].map ErrorKind.code = [1, 2, 3, 4, 5, 6, 7, 8]
end

