-- ==== Sys2Proof/Laws/State.lean ====
section
/-! SUPPORT. One lemma per field per update of State, true by rfl, and the derived reads that an update leaves alone. -/

namespace Sys2Proof.Machine

section Emit
variable (s : State) (e : Event)
@[simp] theorem State.emit_pixelCount : (s.emit e).pixelCount = s.pixelCount := rfl
@[simp] theorem State.emit_resetByte : (s.emit e).resetByte = s.resetByte := rfl
@[simp] theorem State.emit_mem : (s.emit e).mem = s.mem := rfl
@[simp] theorem State.emit_inputs : (s.emit e).inputs = s.inputs := rfl
@[simp] theorem State.emit_txs : (s.emit e).txs = s.txs := rfl
@[simp] theorem State.emit_draws : (s.emit e).draws = s.draws := rfl
@[simp] theorem State.emit_trace : (s.emit e).trace = s.trace ++ [e] := rfl
@[simp] theorem State.emit_length : (s.emit e).length = s.length := rfl
@[simp] theorem State.emit_byteAt (a : Nat) : (s.emit e).byteAt a = s.byteAt a := rfl
@[simp] theorem State.emit_bytes (a n : Nat) : (s.emit e).bytes a n = s.bytes a n := rfl
@[simp] theorem State.emit_groupAt (a : Nat) : (s.emit e).groupAt a = s.groupAt a := rfl
@[simp] theorem State.emit_cell (i c : Nat) : (s.emit e).cell i c = s.cell i c := rfl
end Emit

section Refill
variable (s : State)
@[simp] theorem State.refill_pixelCount : s.refill.pixelCount = s.pixelCount := rfl
@[simp] theorem State.refill_resetByte : s.refill.resetByte = s.resetByte := rfl
@[simp] theorem State.refill_mem : s.refill.mem = [] := rfl
@[simp] theorem State.refill_inputs : s.refill.inputs = s.inputs := rfl
@[simp] theorem State.refill_txs : s.refill.txs = s.txs := rfl
@[simp] theorem State.refill_draws : s.refill.draws = s.draws := rfl
@[simp] theorem State.refill_trace : s.refill.trace = s.trace := rfl
@[simp] theorem State.refill_length : s.refill.length = s.length := rfl
@[simp] theorem State.refill_byteAt (a : Nat) : s.refill.byteAt a = s.resetByte.byte := rfl
end Refill

section Init
variable (n : Nat) (rb : ResetByte)
@[simp] theorem State.init_pixelCount : (State.init n rb).pixelCount = n := rfl
@[simp] theorem State.init_resetByte : (State.init n rb).resetByte = rb := rfl
@[simp] theorem State.init_mem : (State.init n rb).mem = [] := rfl
@[simp] theorem State.init_inputs : (State.init n rb).inputs = [] := rfl
@[simp] theorem State.init_txs : (State.init n rb).txs = [] := rfl
@[simp] theorem State.init_draws : (State.init n rb).draws = 0 := rfl
@[simp] theorem State.init_trace : (State.init n rb).trace = [] := rfl
@[simp] theorem State.init_byteAt (a : Nat) : (State.init n rb).byteAt a = rb.byte := rfl
end Init

section WithMem
variable (s : State) (m : Memory)
@[simp] theorem State.withMem_length : { s with mem := m }.length = s.length := rfl
theorem State.withMem_byteAt (a : Nat) : { s with mem := m }.byteAt a = Memory.read s.resetByte.byte m a := rfl
end WithMem

section WithInputs
variable (s : State) (l : List HostMove)
@[simp] theorem State.withInputs_length : { s with inputs := l }.length = s.length := rfl
@[simp] theorem State.withInputs_byteAt (a : Nat) : { s with inputs := l }.byteAt a = s.byteAt a := rfl
end WithInputs

/-- A group read after an update that keeps its four bytes is the group read before. -/
theorem State.groupAt_congr {s t : State} {a : Nat} (h : ∀ k < 4, t.byteAt (a + k) = s.byteAt (a + k)) :
    t.groupAt a = s.groupAt a := by
  have h0 := h 0 (by decide); have h1 := h 1 (by decide); have h2 := h 2 (by decide); have h3 := h 3 (by decide)
  simp only [Nat.add_zero] at h0
  simp [State.groupAt, h0, h1, h2, h3]

/-- Equal bytes in a span read as equal byte lists. -/
theorem State.bytes_congr {s t : State} {a n : Nat} (h : ∀ k < n, t.byteAt (a + k) = s.byteAt (a + k)) :
    t.bytes a n = s.bytes a n := by
  unfold State.bytes
  exact List.map_congr_left fun k hk => h k (List.mem_range.mp hk)

@[simp] theorem State.bytes_length (s : State) (a n : Nat) : (s.bytes a n).length = n := by simp [State.bytes]

theorem State.bytes_getElem (s : State) (a n k : Nat) (h : k < (s.bytes a n).length) :
    (s.bytes a n)[k] = s.byteAt (a + k) := by simp [State.bytes]

/-- The transport's move leaves everything but `txs` and `draws` alone. -/
theorem State.nextAnswer_frame (s : State) :
    s.nextAnswer.2 = { s with txs := s.nextAnswer.2.txs, draws := s.nextAnswer.2.draws } := by
  unfold State.nextAnswer; split <;> rfl

end Sys2Proof.Machine
end

