-- ==== Sys2Proof/Laws/Memory.lean ====
section
/-! SUPPORT. The laws of memory: a read after a write, the canonical form, and equality of canonical memories. -/

namespace Sys2Proof.Machine

@[simp] theorem Memory.read_nil (d : Byte) (a : Nat) : Memory.read d [] a = d := rfl

theorem Memory.read_cons (d b : Byte) (k a : Nat) (m : Memory) :
    Memory.read d ((k, b) :: m) a = if k = a then b else Memory.read d m a := rfl

theorem Memory.read_insert_same (d b : Byte) (a : Nat) (m : Memory) (h : ∀ c ∈ m, c.1 ≠ a) :
    Memory.read d (Memory.insert a b m) a = b := by
  induction m with
  | nil => simp [Memory.insert, Memory.read]
  | cons c m ih =>
    obtain ⟨k, x⟩ := c
    have hk : k ≠ a := h (k, x) (by simp)
    unfold Memory.insert
    split
    · simp [Memory.read]
    · simp [Memory.read, hk, ih fun c hc => h c (by simp [hc])]

theorem Memory.read_insert_other (d b : Byte) {a x : Nat} (hx : x ≠ a) (m : Memory) :
    Memory.read d (Memory.insert a b m) x = Memory.read d m x := by
  induction m with
  | nil => simp [Memory.insert, Memory.read, Ne.symm hx]
  | cons c m ih =>
    obtain ⟨k, y⟩ := c
    unfold Memory.insert
    split
    · simp [Memory.read, Ne.symm hx]
    · simp [Memory.read, ih]

theorem Memory.erase_notMem (m : Memory) (a : Nat) : ∀ c ∈ Memory.erase m a, c.1 ≠ a := by
  intro c hc; simpa using (List.mem_filter.mp hc).2

theorem Memory.read_of_notMem (d : Byte) (m : Memory) (a : Nat) (h : ∀ c ∈ m, c.1 ≠ a) : Memory.read d m a = d := by
  induction m with
  | nil => rfl
  | cons c m ih =>
    obtain ⟨k, y⟩ := c
    have hk : k ≠ a := h (k, y) (by simp)
    simp [Memory.read, hk, ih fun c hc => h c (by simp [hc])]

theorem Memory.read_erase_other (d : Byte) (m : Memory) {a x : Nat} (hx : x ≠ a) :
    Memory.read d (Memory.erase m a) x = Memory.read d m x := by
  induction m with
  | nil => rfl
  | cons c m ih =>
    obtain ⟨k, y⟩ := c
    unfold Memory.erase at *
    by_cases hk : k = a
    · subst hk; simp [Memory.read, Ne.symm hx, ih]
    · simp [hk, Memory.read, ih]

/-- A read after a write to the same address gives the byte written. -/
theorem Memory.read_write_same (d : Byte) (m : Memory) (a : Nat) (b : Byte) :
    Memory.read d (Memory.write d m a b) a = b := by
  unfold Memory.write
  split
  · rename_i h; subst h; exact Memory.read_of_notMem _ _ _ (Memory.erase_notMem m a)
  · exact Memory.read_insert_same _ _ _ _ (Memory.erase_notMem m a)

/-- A write leaves every other address alone. -/
theorem Memory.read_write_other (d : Byte) (m : Memory) {a x : Nat} (b : Byte) (hx : x ≠ a) :
    Memory.read d (Memory.write d m a b) x = Memory.read d m x := by
  unfold Memory.write
  split
  · exact Memory.read_erase_other d m hx
  · rw [Memory.read_insert_other d b hx, Memory.read_erase_other d m hx]

/-- One read after one write, both cases. -/
theorem Memory.read_write (d : Byte) (m : Memory) (a x : Nat) (b : Byte) :
    Memory.read d (Memory.write d m a b) x = if x = a then b else Memory.read d m x := by
  split
  · rename_i h; subst h; exact Memory.read_write_same d m _ b
  · rename_i h; exact Memory.read_write_other d m b h

/-- One read after a write of several bytes. -/
theorem Memory.read_writeBytes (d : Byte) (bs : List Byte) (m : Memory) (a x : Nat) :
    Memory.read d (Memory.writeBytes d m a bs) x =
      if h : a ≤ x ∧ x < a + bs.length then bs[x - a]'(by omega) else Memory.read d m x := by
  induction bs generalizing m a with
  | nil => simp [Memory.writeBytes, show ¬(a ≤ x ∧ x < a) by omega]
  | cons b bs ih =>
    rw [Memory.writeBytes, ih]
    by_cases hx : x = a
    · subst hx; simp [Memory.read_write_same]
    · by_cases h : a ≤ x ∧ x < a + (b :: bs).length
      · obtain ⟨k, hk⟩ : ∃ k, x - a = k + 1 := ⟨x - a - 1, by omega⟩
        have h1 : a + 1 ≤ x ∧ x < a + 1 + bs.length := by simp at h; omega
        have h2 : x - (a + 1) = k := by omega
        rw [dif_pos h1, dif_pos h]
        simp [hk, h2]
      · have h1 : ¬(a + 1 ≤ x ∧ x < a + 1 + bs.length) := by simp at h; omega
        simp only [h, h1, dite_false]
        exact Memory.read_write_other d m b hx

theorem Memory.mem_insert {a : Nat} {b : Byte} {m : Memory} {c : Host.Cell} :
    c ∈ Memory.insert a b m ↔ c = (a, b) ∨ c ∈ m := by
  induction m with
  | nil => simp [Memory.insert]
  | cons e m ih =>
    obtain ⟨k, x⟩ := e
    unfold Memory.insert
    split
    · simp
    · simp [ih]; tauto

theorem Memory.insert_sorted {a : Nat} {b : Byte} {m : Memory} (h : m.Pairwise (fun x y => x.1 < y.1))
    (hn : ∀ c ∈ m, c.1 ≠ a) : (Memory.insert a b m).Pairwise (fun x y => x.1 < y.1) := by
  induction m with
  | nil => simp [Memory.insert]
  | cons e m ih =>
    obtain ⟨k, x⟩ := e
    have hk : k ≠ a := hn (k, x) (by simp)
    rw [List.pairwise_cons] at h
    unfold Memory.insert
    split
    · rename_i hlt
      refine List.pairwise_cons.mpr ⟨?_, List.pairwise_cons.mpr h⟩
      intro c hc
      rcases List.mem_cons.mp hc with rfl | hc
      · exact hlt
      · exact Nat.lt_trans hlt (h.1 c hc)
    · rename_i hge
      refine List.pairwise_cons.mpr ⟨?_, ih h.2 fun c hc => hn c (by simp [hc])⟩
      intro c hc
      rcases Memory.mem_insert.mp hc with rfl | hc
      · simp; omega
      · exact h.1 c hc

theorem Memory.erase_wf {d : Byte} {m : Memory} (a : Nat) (h : Memory.wf d m) : Memory.wf d (Memory.erase m a) :=
  ⟨h.1.filter _, fun c hc => h.2 c (List.mem_filter.mp hc).1⟩

/-- A write keeps the canonical form. -/
theorem Memory.write_wf {d : Byte} {m : Memory} (a : Nat) (b : Byte) (h : Memory.wf d m) :
    Memory.wf d (Memory.write d m a b) := by
  have he := Memory.erase_wf a h
  unfold Memory.write
  split
  · exact he
  · rename_i hb
    refine ⟨Memory.insert_sorted he.1 (Memory.erase_notMem m a), fun c hc => ?_⟩
    rcases Memory.mem_insert.mp hc with rfl | hc
    · exact hb
    · exact he.2 c hc

/-- A write of several bytes keeps the canonical form. -/
theorem Memory.writeBytes_wf {d : Byte} (bs : List Byte) {m : Memory} (a : Nat) (h : Memory.wf d m) :
    Memory.wf d (Memory.writeBytes d m a bs) := by
  induction bs generalizing m a with
  | nil => exact h
  | cons b bs ih => exact ih _ (Memory.write_wf a b h)

/-- Every entry after a write is the one written or an entry of before. -/
theorem Memory.mem_write {d : Byte} {m : Memory} {a : Nat} {b : Byte} {c : Host.Cell}
    (h : c ∈ Memory.write d m a b) : c = (a, b) ∨ c ∈ m := by
  unfold Memory.write at h
  split at h
  · exact .inr (List.mem_filter.mp h).1
  · rcases Memory.mem_insert.mp h with h | h
    · exact .inl h
    · exact .inr (List.mem_filter.mp h).1

/-- Every entry after a write of several bytes is one of the bytes at its address, or an entry of before. -/
theorem Memory.mem_writeBytes {d : Byte} {bs : List Byte} {m : Memory} {a : Nat} {c : Host.Cell}
    (h : c ∈ Memory.writeBytes d m a bs) : (a ≤ c.1 ∧ c.1 < a + bs.length ∧ c.2 ∈ bs) ∨ c ∈ m := by
  induction bs generalizing m a with
  | nil => exact .inr h
  | cons b bs ih =>
    rcases ih h with ⟨h1, h2, h3⟩ | h
    · exact .inl ⟨by omega, by simp; omega, by simp [h3]⟩
    · rcases Memory.mem_write h with rfl | h
      · exact .inl ⟨by simp, by simp, by simp⟩
      · exact .inr h

theorem Memory.read_of_mem {d : Byte} {m : Memory} (h : m.Pairwise (fun x y => x.1 < y.1)) {c : Host.Cell}
    (hc : c ∈ m) : Memory.read d m c.1 = c.2 := by
  induction m with
  | nil => cases hc
  | cons e m ih =>
    obtain ⟨k, x⟩ := e
    rw [List.pairwise_cons] at h
    rcases List.mem_cons.mp hc with rfl | hc
    · simp [Memory.read]
    · have : k ≠ c.1 := Nat.ne_of_lt (h.1 c hc)
      simp [Memory.read, this, ih h.2 hc]

/-- Canonical memories that read the same everywhere are equal. -/
theorem Memory.wf_ext {d : Byte} {m m' : Memory} (h : Memory.wf d m) (h' : Memory.wf d m')
    (he : ∀ a, Memory.read d m a = Memory.read d m' a) : m = m' := by
  have key : ∀ {p q : Memory}, Memory.wf d p → Memory.wf d q → (∀ a, Memory.read d p a = Memory.read d q a) →
      p ⊆ q := by
    intro p q hp hq hpq c hc
    have hr : Memory.read d q c.1 = c.2 := by rw [← hpq, Memory.read_of_mem hp.1 hc]
    by_contra hn
    by_cases hex : ∃ e ∈ q, e.1 = c.1
    · obtain ⟨e, heq, h1⟩ := hex
      have := Memory.read_of_mem (d := d) hq.1 heq
      rw [h1, hr] at this
      exact hn (by rw [show c = e from Prod.ext h1.symm this]; exact heq)
    · have := Memory.read_of_notMem d q c.1 (fun e heq h1 => hex ⟨e, heq, h1⟩)
      exact hp.2 c hc (by rw [← hr, this])
  have nodup : ∀ {p : Memory}, p.Pairwise (fun x y => x.1 < y.1) → p.Nodup := fun hp =>
    hp.imp fun hlt heq => by rw [heq] at hlt; exact Nat.lt_irrefl _ hlt
  have hperm : m.Perm m' := (List.perm_ext_iff_of_nodup (nodup h.1) (nodup h'.1)).mpr
    fun c => ⟨fun hc => key h h' he hc, fun hc => key h' h (fun a => (he a).symm) hc⟩
  exact hperm.eq_of_pairwise (fun x y _ _ hxy hyx => absurd hxy (Nat.lt_asymm hyx)) h.1 h'.1

end Sys2Proof.Machine
end

