-- ==== Sys2Proof/Laws/Codec.lean ====
section
/-! SUPPORT. The laws of the table byte and of canonical groups. -/

namespace Sys2Proof.Machine

theorem tableByte_canonical (p : BitVec 2) : canonicalByte (tableByte p) = true := by
  unfold tableByte; split <;> decide

/-- Every group that `expand` makes is canonical. -/
theorem expand_canonical (v : Byte) : (expand v).canonical = true := by
  simp [Group.canonical, expand, tableByte_canonical]

theorem expand_bytes_canonical (v : Byte) : ∀ b ∈ (expand v).bytes, canonicalByte b = true := by
  intro b hb
  simp only [Group.bytes, expand, List.mem_cons, List.not_mem_nil, or_false] at hb
  rcases hb with rfl | rfl | rfl | rfl <;> exact tableByte_canonical _

@[simp] theorem Group.bytes_length (g : Group) : g.bytes.length = 4 := rfl

@[simp] theorem Triple.channel_zero (t : Triple) : t.channel 0 = t.c0 := rfl
@[simp] theorem Triple.channel_one (t : Triple) : t.channel 1 = t.c1 := rfl
@[simp] theorem Triple.channel_two (t : Triple) : t.channel 2 = t.c2 := rfl

end Sys2Proof.Machine
end

