-- ==== Sys2Proof/Laws/Encoding.lean ====
section
/-! SUPPORT. The encoder and the readers, one lemma per function: what a reader answers on the words that the encoder
writes, with any words after them. -/

namespace Sys2Proof

/-! ## The header -/

theorem decodeHeader_encodeHeader (h : Header) : decodeHeader (encodeHeader h) = some h := by
  cases h with
  | expand k => cases k <;> decide
  | compress => decide
  | get a => cases a with
    | range s e t => cases s <;> cases e <;> cases t <;> decide
    | _ => decide
  | set a k => cases a with
    | range s e t => cases s <;> cases e <;> cases t <;> cases k <;> decide
    | _ => cases k <;> decide
  | count => decide
  | rotate k => cases k <;> decide
  | write => decide

/-- A header word is its OPC, its bits [23:17] and its VK, when ZERO is 0 (30_encoding.md R71). -/
theorem headerWord_of_bits {w : Word} {opc akset vk : Nat} (zero : bits w 14 0 = 0) (hopc : bits w 31 24 = opc)
    (hset : bits w 23 17 = akset) (hvk : bits w 16 15 = vk) : headerWord opc akset vk = w := by
  apply BitVec.eq_of_toNat_eq
  have := w.isLt
  rw [headerWord, BitVec.toNat_ofNat]
  unfold bits at *
  omega

theorem decodeVK_code (w : Word) : (decodeVK w).code = bits w 16 15 := by
  have : bits w 16 15 < 4 := Nat.mod_lt _ (by decide)
  have : bits w 16 15 = 0 ∨ bits w 16 15 = 1 ∨ bits w 16 15 = 2 ∨ bits w 16 15 = 3 := by omega
  unfold decodeVK
  rcases this with h | h | h | h <;> rw [h] <;> rfl

theorem toNat_oneBit (w : Word) (k : Nat) : (bits w k k == 1).toNat = bits w k k := by
  have : bits w k k < 2 := by
    rw [bits, show k + 1 - k = 1 by omega]
    exact Nat.mod_lt _ (by decide)
  have : bits w k k = 0 ∨ bits w k k = 1 := by omega
  rcases this with h | h <;> rw [h] <;> rfl

theorem decodeAK_code {w : Word} {a : AddrClass} (h : decodeAK w = some a) : a.code = bits w 23 17 := by
  have split7 : bits w 23 17 = bits w 23 20 * 8 + bits w 19 17 := by unfold bits; omega
  have split3 : bits w 19 17 = bits w 19 19 * 4 + bits w 18 18 * 2 + bits w 17 17 := by unfold bits; omega
  unfold decodeAK at h
  split at h
  · rename_i hr
    injection h with h
    subst h
    simp only [AddrClass.code, toNat_oneBit]
    omega
  · split at h
    · cases h
    · rename_i _ hz
      simp only [ne_eq, not_not] at hz
      rw [split7, hz]
      split at h <;> first | cases h; done | (rename_i hk; injection h with h; subst h; rw [hk]; rfl)

/-! ## Integers and counts -/

theorem toInt_intWord {z : Int} (h : fitsWord z = true) : (intWord z).toInt = z := by
  simp only [fitsWord, Bool.and_eq_true, decide_eq_true_eq] at h
  rw [intWord, BitVec.toInt_ofInt, Int.bmod]
  omega

theorem toNat_countWord {n : Nat} (h : fitsCount n = true) : (countWord n).toNat = n := by
  simp only [fitsCount, decide_eq_true_eq] at h
  rw [countWord, BitVec.toNat_ofNat]
  omega

theorem intWord_toInt (w : Word) : intWord w.toInt = w := by simp [intWord]

theorem countWord_toNat (w : Word) : countWord w.toNat = w := by simp [countWord]

/-! ## Sequences, values, ranges -/

theorem map_toInt_words {xs : List Comp} (h : xs.all Comp.wf = true) :
    (xs.map Comp.word).map (fun w : Word => Comp.int w.toInt) = xs := by
  induction xs with
  | nil => rfl
  | cons x xs ih =>
    rw [List.all_cons, Bool.and_eq_true] at h
    rw [List.map_cons, List.map_cons, ih h.2]
    cases x with
    | nonInt => cases h.1
    | int z => rw [Comp.word, toInt_intWord h.1]

theorem readSeq_words {xs : List Comp} (h : seqWf xs = true) (ws : List Word) :
    readSeq (seqWords xs ++ ws) = some (xs, ws) := by
  rw [seqWf, Bool.and_eq_true] at h
  change readComps (countWord xs.length).toNat (xs.map Comp.word ++ ws) = _
  rw [toNat_countWord h.1, readComps, if_pos (by simp)]
  simp [map_toInt_words h.2]

theorem readElems_words {es : List (List Comp)} (h : es.all seqWf = true) (ws : List Word) :
    readElems es.length (es.flatMap seqWords ++ ws) = some (es, ws) := by
  induction es with
  | nil => rfl
  | cons e es ih =>
    rw [List.all_cons, Bool.and_eq_true] at h
    rw [List.flatMap_cons, List.length_cons, List.append_assoc, readElems, readSeq_words h.1]
    change (readElems es.length _ >>= _) = _
    rw [ih h.2]; rfl

theorem readSeqSeq_words {es : List (List Comp)} (h : fitsCount es.length = true) (hes : es.all seqWf = true)
    (ws : List Word) : readSeqSeq (seqSeqWords es ++ ws) = some (es, ws) := by
  change readElems (countWord es.length).toNat _ = _
  rw [toNat_countWord h]; exact readElems_words hes ws

theorem readValue_words {v : Value} (h : v.wf = true) (ws : List Word) :
    readValue v.kind (v.words ++ ws) = some (v, ws) := by
  match v, h with
  | .scalar (.int z), h =>
    change some (Value.scalar (.int (intWord z).toInt), ws) = _
    rw [toInt_intWord h]
  | .scalar .nonInt, _ => rfl
  | .seq xs, h =>
    change (readSeq (seqWords xs ++ ws) >>= _) = _
    rw [readSeq_words h]; rfl
  | .seqSeq es, h =>
    rw [Value.wf, Bool.and_eq_true] at h
    change (readSeqSeq (seqSeqWords es ++ ws) >>= _) = _
    rw [readSeqSeq_words h.1 h.2]; rfl

theorem readBound_words {b : Option Int} (h : boundWf b = true) (ws : List Word) :
    readBound b.isSome (boundWords b ++ ws) = some (b, ws) := by
  cases b with
  | none => rfl
  | some z =>
    change some (some (intWord z).toInt, ws) = _
    rw [toInt_intWord h]

theorem readRange_words {a b c : Option Int} (h : rangeWf a b c = true) (ws : List Word) :
    readRange a.isSome b.isSome c.isSome (rangeWords a b c ++ ws) = some ((a, b, c), ws) := by
  simp only [rangeWf, Bool.and_eq_true] at h
  rw [readRange, rangeWords, List.append_assoc, List.append_assoc, readBound_words h.1.1]
  change (readBound _ _ >>= _) = _
  rw [readBound_words h.1.2]
  change (readBound _ _ >>= _) = _
  rw [readBound_words h.2]; rfl

end Sys2Proof
end

