-- ==== Sys2Proof/Laws/Ops.lean ====
section
/-! SUPPORT. One spec lemma per shared operation over BUF: what it reads, what it writes, what it leaves alone. -/

namespace Sys2Proof.Machine

/-! ## Reads -/

theorem goff_bound {n i c : Nat} (hi : i < n) (hc : c < 3) : goff i c + 4 ≤ 12 * n := by unfold goff; omega

theorem State.readGroup_ok {s : State} {a : Nat} (h : a + 4 ≤ s.length) : s.readGroup a = .ok (s.groupAt a) := by
  simp [State.readGroup, h]

/-- The read of a cell of the buffer gives the cell (10_state.md R23). -/
theorem State.readCell_ok {s : State} {i c : Nat} (hi : i < s.pixelCount) (hc : c < 3) :
    s.readCell i c = .ok (s.cell i c) := by
  rw [State.readCell, State.readGroup_ok (goff_bound hi hc)]; rfl

/-- The read of a pixel of the buffer gives its three cells. -/
theorem State.readPixel_ok {s : State} {i : Nat} (hi : i < s.pixelCount) : s.readPixel i = .ok (s.pixel i) := by
  simp only [State.readPixel, State.readCell_ok hi (by decide : 0 < 3), State.readCell_ok hi (by decide : 1 < 3),
    State.readCell_ok hi (by decide : 2 < 3)]
  rfl

theorem State.pixels_succ (s : State) (a k : Nat) : s.pixels a (k + 1) = s.pixel a ++ s.pixels (a + 1) k := by
  simp [State.pixels, List.range_succ_eq_map, List.flatMap_map, Nat.add_assoc, Nat.add_comm 1]

/-- The read of a range of the buffer gives the cells of its pixels in ascending order. -/
theorem State.readPixels_ok {s : State} {k : Nat} : ∀ {i : Nat}, i + k ≤ s.pixelCount →
    s.readPixels i k = .ok (s.pixels i k) := by
  induction k with
  | zero => intro i _; rfl
  | succ k ih =>
    intro i h
    simp only [State.readPixels, State.readPixel_ok (show i < s.pixelCount by omega), ih (show i + 1 + k ≤ _ by omega),
      State.pixels_succ]
    rfl

theorem State.memRead_ok {s : State} {a n : Nat} (h : a + n ≤ s.length) : s.memRead a n = .ok (s.bytes a n) := by
  simp [State.memRead, h]

/-! ## Writes -/

/-- `t` is `s` with bytes of BUF written in `lo .. hi-1` only, and a good state stays good. -/
structure State.Wrote (s t : State) (lo hi : Nat) : Prop where
  frame : t = { s with mem := t.mem }
  outside : s.keepsOutside t lo hi
  inv : s.Inv → t.Inv

theorem State.Wrote.pixelCount {s t : State} {lo hi : Nat} (h : s.Wrote t lo hi) : t.pixelCount = s.pixelCount := by
  rw [h.frame]

theorem State.Wrote.resetByte {s t : State} {lo hi : Nat} (h : s.Wrote t lo hi) : t.resetByte = s.resetByte := by
  rw [h.frame]

theorem State.Wrote.length {s t : State} {lo hi : Nat} (h : s.Wrote t lo hi) : t.length = s.length := by
  simp [State.length, h.pixelCount]

theorem State.Wrote.refl (s : State) (lo hi : Nat) : s.Wrote s lo hi := ⟨rfl, fun _ _ => rfl, id⟩

theorem State.Wrote.trans {s t u : State} {lo hi lo' hi' : Nat} (h : s.Wrote t lo hi) (h' : t.Wrote u lo' hi') :
    s.Wrote u (min lo lo') (max hi hi') :=
  ⟨by rw [h'.frame, h.frame],
   fun a ha => (h'.outside a (by omega)).trans (h.outside a (by omega)), fun i => h'.inv (h.inv i)⟩

theorem State.Wrote.mono {s t : State} {lo hi lo' hi' : Nat} (h : s.Wrote t lo hi) (h1 : lo' ≤ lo) (h2 : hi ≤ hi') :
    s.Wrote t lo' hi' :=
  ⟨h.frame, fun a ha => h.outside a (by omega), h.inv⟩

/-- Bytes that lie inside BUF, and are canonical under the reset byte 0x88, are written where they are said to be. -/
theorem State.memWrite_spec {s : State} {a : Nat} {bs : List Byte} (h : a + bs.length ≤ s.length)
    (hc : s.Inv → s.resetByte = .x88 → ∀ b ∈ bs, canonicalByte b = true) :
    ∃ t, s.memWrite a bs = .ok t ∧ s.Wrote t a (a + bs.length) ∧
      ∀ k (hk : k < bs.length), t.byteAt (a + k) = bs[k] := by
  refine ⟨{ s with mem := Memory.writeBytes s.resetByte.byte s.mem a bs }, by simp [State.memWrite, h], ⟨rfl, ?_, ?_⟩, ?_⟩
  · intro x hx
    rw [State.withMem_byteAt, Memory.read_writeBytes, dif_neg (by omega)]; rfl
  · rintro ⟨h1, h2, h3, h4⟩
    refine ⟨h1, Memory.writeBytes_wf _ _ h2, fun c hm => ?_, fun hr c hm => ?_⟩
    · rcases Memory.mem_writeBytes hm with ⟨_, h6, _⟩ | hm
      · exact Nat.lt_of_lt_of_le h6 h
      · exact h3 c hm
    · rcases Memory.mem_writeBytes hm with ⟨_, _, h7⟩ | hm
      · exact hc ⟨h1, h2, h3, h4⟩ hr _ h7
      · exact h4 hr c hm
  · intro k hk
    rw [State.withMem_byteAt, Memory.read_writeBytes, dif_pos (by omega)]
    congr 1; omega

/-- A cell of the buffer takes the expansion of its value; the other bytes stay (42_pixel_buffer.md R147, R148). -/
theorem State.writeCell_spec {s : State} {i c : Nat} (v : Byte) (hi : i < s.pixelCount) (hc : c < 3) :
    ∃ t, s.writeCell i c v = .ok t ∧ s.Wrote t (goff i c) (goff i c + 4) ∧ t.groupAt (goff i c) = expand v := by
  obtain ⟨t, h1, h2, h3⟩ := State.memWrite_spec (s := s) (a := goff i c) (bs := (expand v).bytes) (goff_bound hi hc)
    (fun _ _ => expand_bytes_canonical v)
  refine ⟨t, h1, h2, ?_⟩
  have e0 := h3 0 (by simp); have e1 := h3 1 (by simp); have e2 := h3 2 (by simp); have e3 := h3 3 (by simp)
  simp only [Nat.add_zero] at e0
  simp [State.groupAt, e0, e1, e2, e3, Group.bytes]

/-- A group outside what was written reads as before. -/
theorem State.Wrote.groupAt {s t : State} {lo hi a : Nat} (h : s.Wrote t lo hi) (ha : a + 4 ≤ lo ∨ hi ≤ a) :
    t.groupAt a = s.groupAt a := State.groupAt_congr fun k hk => h.outside _ (by omega)

/-- A pixel of the buffer takes the expansion of a triple; the other bytes stay (R145). -/
theorem State.writePixel_spec {s : State} {i : Nat} (v : Triple) (hi : i < s.pixelCount) :
    ∃ t, s.writePixel i v = .ok t ∧ s.Wrote t (soff i) (soff i + 12) ∧ t.holdsTriple i v := by
  obtain ⟨t0, w0, f0, g0⟩ := State.writeCell_spec (s := s) (c := 0) v.c0 hi (by decide)
  obtain ⟨t1, w1, f1, g1⟩ := State.writeCell_spec (s := t0) (i := i) (c := 1) v.c1 (f0.pixelCount ▸ hi) (by decide)
  obtain ⟨t2, w2, f2, g2⟩ := State.writeCell_spec (s := t1) (i := i) (c := 2) v.c2
    (f1.pixelCount ▸ f0.pixelCount ▸ hi) (by decide)
  refine ⟨t2, ?_, ((f0.trans f1).trans f2).mono (by simp [goff, soff]) (by simp [goff, soff]), ?_⟩
  · rw [State.writePixel, w0]
    change (do let s ← t0.writeCell i 1 v.c1; s.writeCell i 2 v.c2) = _
    rw [w1]; exact w2
  · intro c hc
    have : c = 0 ∨ c = 1 ∨ c = 2 := by omega
    rcases this with rfl | rfl | rfl
    · rw [f2.groupAt (by simp [goff]), f1.groupAt (by simp [goff]), g0]; rfl
    · rw [f2.groupAt (by simp [goff]), g1]; rfl
    · exact g2

theorem State.holdsTriple_congr {s t : State} {i : Nat} {v : Triple} (h : s.holdsTriple i v)
    (hb : ∀ k < 12, t.byteAt (soff i + k) = s.byteAt (soff i + k)) : t.holdsTriple i v := by
  intro c hc
  rw [State.groupAt_congr (s := s) (t := t) (a := goff i c), h c hc]
  intro k hk
  have := hb (4 * c + k) (by omega)
  simpa [goff, soff, Nat.add_assoc] using this

theorem State.Wrote.holdsTriple {s t : State} {lo hi i : Nat} {v : Triple} (h : s.Wrote t lo hi)
    (hs : s.holdsTriple i v) (ha : soff i + 12 ≤ lo ∨ hi ≤ soff i) : t.holdsTriple i v :=
  State.holdsTriple_congr hs fun _ _ => h.outside _ (by omega)

/-- Slots of the buffer take the expansions of triples, in order; the other bytes stay (R153). -/
theorem State.writePixels_spec (vs : List Triple) : ∀ {s : State} {i : Nat}, i + vs.length ≤ s.pixelCount →
    ∃ t, s.writePixels i vs = .ok t ∧ s.Wrote t (soff i) (soff (i + vs.length)) ∧
      ∀ k (hk : k < vs.length), t.holdsTriple (i + k) vs[k] := by
  induction vs with
  | nil => intro s i _; exact ⟨s, rfl, .refl _ _ _, fun k hk => absurd hk (Nat.not_lt_zero k)⟩
  | cons v vs ih =>
    intro s i h
    simp only [List.length_cons] at h
    obtain ⟨t, w, f, g⟩ := State.writePixel_spec (s := s) (i := i) v (by omega)
    obtain ⟨u, w', f', g'⟩ := ih (s := t) (i := i + 1) (by rw [f.pixelCount]; omega)
    refine ⟨u, ?_, (f.trans f').mono (by simp [soff]) (by simp [soff]; omega), ?_⟩
    · rw [State.writePixels, w]; exact w'
    · intro k hk
      cases k with
      | zero => exact f'.holdsTriple g (.inl (by simp [soff]; omega))
      | succ k =>
        have := g' k (by simpa using hk)
        simpa [Nat.add_assoc, Nat.add_comm 1] using this

/-- Canonical bytes where a good state under the reset byte 0x88 is read. -/
theorem State.Inv.byteAt_canonical {s : State} (h : s.Inv) (hr : s.resetByte = .x88) (a : Nat) :
    canonicalByte (s.byteAt a) = true := by
  by_cases hex : ∃ c ∈ s.mem, c.1 = a
  · obtain ⟨c, hc, rfl⟩ := hex
    rw [State.byteAt, Memory.read_of_mem h.2.1.1 hc]; exact h.2.2.2 hr c hc
  · rw [State.byteAt, Memory.read_of_notMem _ _ _ (fun c hc he => hex ⟨c, hc, he⟩), hr]; decide

theorem State.Inv.bytes_canonical {s : State} (h : s.Inv) (hr : s.resetByte = .x88) (a n : Nat) :
    ∀ b ∈ s.bytes a n, canonicalByte b = true := by
  intro b hb
  obtain ⟨k, _, rfl⟩ := List.mem_map.mp hb
  exact h.byteAt_canonical hr _

/-- The slots behind the source slot take its bytes; the other bytes stay (R150). -/
theorem State.tileCopy_spec {v : Triple} {a : Nat} (k : Nat) : ∀ {s : State} {i : Nat}, a < i → i + k ≤ s.pixelCount →
    s.holdsTriple a v →
    ∃ t, s.tileCopy a i k = .ok t ∧ s.Wrote t (soff i) (soff (i + k)) ∧ ∀ j < k, t.holdsTriple (i + j) v := by
  induction k with
  | zero => intro s i _ _ _; exact ⟨s, rfl, .refl _ _ _, fun j hj => absurd hj (Nat.not_lt_zero j)⟩
  | succ k ih =>
    intro s i hai h hv
    obtain ⟨t, w, f, g⟩ := State.memWrite_spec (s := s) (a := soff i) (bs := s.bytes (soff a) 12)
      (by simp [State.length, soff]; omega) (fun hs hr => hs.bytes_canonical hr _ _)
    simp only [State.bytes_length] at f g
    have hta : t.holdsTriple a v := f.holdsTriple hv (.inl (by simp [soff]; omega))
    have hti : t.holdsTriple i v := by
      intro c hc
      have hgr : t.groupAt (goff i c) = s.groupAt (goff a c) := by
        have hb : ∀ m < 4, t.byteAt (goff i c + m) = s.byteAt (goff a c + m) := by
          intro m hm
          have := g (4 * c + m) (by omega)
          rw [State.bytes_getElem] at this
          simpa [goff, soff, Nat.add_assoc] using this
        have h0 := hb 0 (by decide); have h1 := hb 1 (by decide)
        have h2 := hb 2 (by decide); have h3 := hb 3 (by decide)
        simp only [Nat.add_zero] at h0
        simp [State.groupAt, h0, h1, h2, h3]
      rw [hgr, hv c hc]
    obtain ⟨u, w', f', g'⟩ := ih (s := t) (i := i + 1) (by omega) (by rw [f.pixelCount]; omega) hta
    refine ⟨u, ?_, (f.trans f').mono (by simp [soff]) (by simp [soff]; omega), ?_⟩
    · rw [State.tileCopy, State.memRead_ok (by simp [State.length, soff]; omega)]
      change (do let s ← s.memWrite (soff i) (s.bytes (soff a) 12); s.tileCopy a (i + 1) k) = _
      rw [w]; exact w'
    · intro j hj
      cases j with
      | zero => exact f'.holdsTriple hti (.inl (by simp [soff]; omega))
      | succ j =>
        have := g' j (by omega)
        simpa [Nat.add_assoc, Nat.add_comm 1] using this

/-! ## The port TXS -/

@[simp] theorem readTxs_zero (info : Word) : readTxs 0#1 info = .ok := rfl
@[simp] theorem readTxs_one (info : Word) : readTxs 1#1 info = .fail info := rfl
@[simp] theorem TxsInput.read_answer (fail : BitVec 1) (info : Word) :
    (TxsInput.answer fail info).read = some (readTxs fail info) := rfl
@[simp] theorem TxsInput.read_silent : TxsInput.silent.read = none := rfl

/-- An answer spelled on TXS is read back. -/
@[simp] theorem read_txsSignal (a : TransportAnswer) : (txsSignal a).read = some a := by cases a <;> rfl

/-- Only the silent move answers nothing. -/
theorem TxsInput.read_eq_none {x : TxsInput} : x.read = none ↔ x = .silent := by cases x <;> simp

end Sys2Proof.Machine
end

