-- ==== Sys2Proof/Laws/Operands.lean ====
section
/-! SUPPORT. One spec lemma per operand form: what address resolution and the value checks answer, and when. -/

namespace Sys2Proof.Machine

theorem pixelOf_lt {n : Nat} {p : Int} (h : validIndex n p) : pixelOf n p < n := by
  unfold validIndex at h; unfold pixelOf; split <;> omega

/-- A valid index resolves to the pixel it names (41_index_resolver.md R121). -/
theorem normIndex_valid {n : Nat} {p : Int} (h : validIndex n p) : normIndex n p = .ok (pixelOf n p) := by
  unfold validIndex at h
  unfold normIndex pixelOf
  dsimp only
  rw [if_neg]; split <;> omega

/-- Every other index is out of range. -/
theorem normIndex_invalid {n : Nat} {p : Int} (h : ¬validIndex n p) : normIndex n p = .error .outOfRange := by
  unfold validIndex at h
  unfold normIndex
  dsimp only
  rw [if_pos]; split <;> omega

theorem normIndex_lt {n : Nat} {p : Int} {i : Nat} (h : normIndex n p = .ok i) : i < n := by
  by_cases hv : validIndex n p
  · rw [normIndex_valid hv] at h; injection h with h; exact h ▸ pixelOf_lt hv
  · rw [normIndex_invalid hv] at h; cases h

theorem checkChannel_valid {c : Int} (h : 0 ≤ c ∧ c < 3) : checkChannel c = .ok c.toNat := by
  unfold checkChannel; rw [if_neg]; omega

theorem checkChannel_invalid {c : Int} (h : ¬(0 ≤ c ∧ c < 3)) : checkChannel c = .error .outOfRange := by
  unfold checkChannel; rw [if_pos]; omega

/-- A pair with a valid pixel and a channel resolves to both (R123). -/
theorem resolvePair_valid {n : Nat} {p c : Int} (hp : validIndex n p) (hc : 0 ≤ c ∧ c < 3) :
    resolvePair n p c = .ok (pixelOf n p, c.toNat) := by
  rw [resolvePair, normIndex_valid hp, checkChannel_valid hc]; rfl

theorem resolvePair_invalid {n : Nat} {p c : Int} (h : ¬(validIndex n p ∧ 0 ≤ c ∧ c < 3)) :
    resolvePair n p c = .error .outOfRange := by
  rw [resolvePair]
  by_cases hp : validIndex n p
  · rw [normIndex_valid hp, checkChannel_invalid (fun hc => h ⟨hp, hc⟩)]; rfl
  · rw [normIndex_invalid hp]; rfl

theorem resolvePair_bounds {n : Nat} {p c : Int} {ic : Nat × Nat} (h : resolvePair n p c = .ok ic) :
    ic.1 < n ∧ ic.2 < 3 := by
  by_cases hv : validIndex n p ∧ 0 ≤ c ∧ c < 3
  · rw [resolvePair_valid hv.1 hv.2] at h
    injection h with h
    exact h ▸ ⟨pixelOf_lt hv.1, by simp; omega⟩
  · rw [resolvePair_invalid hv] at h; cases h

theorem normBound_le (n : Nat) (x : Option Int) {d : Nat} (hd : d ≤ n) : normBound n x d ≤ n := by
  unfold normBound
  split
  · exact hd
  · split <;> omega

/-- `0 <= a <= b <= N` of a range (R120). -/
theorem normRange_bounds (n : Nat) (start stop : Option Int) :
    (normRange n start stop).1 ≤ (normRange n start stop).2 ∧ (normRange n start stop).2 ≤ n := by
  have h1 := normBound_le n start (d := 0) (by omega)
  have h2 := normBound_le n stop (d := n) (by omega)
  unfold normRange
  dsimp only
  split
  · exact ⟨Nat.le_refl _, h1⟩
  · exact ⟨by simp; omega, h2⟩

theorem resolveRange_step {n : Nat} {start stop step : Option Int} (h : step = none ∨ step = some 1) :
    resolveRange n start stop step = .ok (normRange n start stop) := by
  simp [resolveRange, h]

theorem resolveRange_badStep {n : Nat} {start stop step : Option Int} (h : ¬(step = none ∨ step = some 1)) :
    resolveRange n start stop step = .error .unsupportedOperation := by
  simp [resolveRange, h]

theorem resolveRange_bounds {n : Nat} {start stop step : Option Int} {ab : Nat × Nat}
    (h : resolveRange n start stop step = .ok ab) : ab.1 ≤ ab.2 ∧ ab.2 ≤ n := by
  by_cases hs : step = none ∨ step = some 1
  · rw [resolveRange_step hs] at h; injection h with h; exact h ▸ normRange_bounds n start stop
  · rw [resolveRange_badStep hs] at h; cases h

/-- A check that succeeds lets the command go on. -/
@[simp] theorem andThen_ok {α : Type} (s : State) (v : α) (f : α → Out) : andThen s (.ok v) f = f v := rfl

/-- A check that fails ends the command with its error. -/
@[simp] theorem andThen_error {α : Type} (s : State) (e : ErrorKind) (f : α → Out) :
    andThen s (.error e) f = raise e s := rfl

@[simp] theorem answerValues_ok (s : State) (vs : List Byte) : answerValues s (.ok vs) = respond (.values vs) s := rfl

@[simp] theorem finish_ok (t : State) : finish (.ok t) = respond .empty t := rfl

theorem channelValue_valid {v : Int} (h : 0 ≤ v ∧ v ≤ 255) : channelValue (.int v) = .ok (BitVec.ofInt 8 v) := by
  unfold channelValue; dsimp only; rw [if_neg]; omega

theorem channelValue_invalid {v : Int} (h : ¬(0 ≤ v ∧ v ≤ 255)) : channelValue (.int v) = .error .valueOutOfDomain := by
  unfold channelValue; dsimp only; rw [if_pos]; omega

theorem checkTriples_length {es : List (List Comp)} : ∀ {ts : List Triple}, checkTriples es = .ok ts →
    ts.length = es.length := by
  induction es with
  | nil => intro ts h; injection h with h; subst h; rfl
  | cons e es ih =>
    intro ts h
    rw [checkTriples] at h
    cases he : checkTriple e with
    | error x => rw [he] at h; cases h
    | ok t =>
      rw [he] at h
      cases hes : checkTriples es with
      | error x => rw [hes] at h; cases h
      | ok us =>
        rw [hes] at h
        injection h with h
        subst h
        simp [ih hes]

end Sys2Proof.Machine
end

