-- ==== Sys2Proof/Laws/Rotator.lean ====
section
/-! SUPPORT. The laws of the rotation: where each byte of the snapshot comes to stand. -/

namespace Sys2Proof.Machine

theorem rotate_place_inj {len c p q : Nat} (hp : p < len) (hq : q < len) (h : (p + c) % len = (q + c) % len) :
    p = q := by
  have := Nat.ModEq.add_right_cancel' c (show p + c ≡ q + c [MOD len] from h)
  rwa [Nat.ModEq, Nat.mod_eq_of_lt hp, Nat.mod_eq_of_lt hq] at this

/-- An address that no byte is moved to reads as before. -/
theorem placeRotated_other (d : Byte) (len c : Nat) (old : List Byte) : ∀ (p : Nat) (m : Memory) (x : Nat),
    (∀ q, p ≤ q → q < p + old.length → (q + c) % len ≠ x) →
    Memory.read d (placeRotated d len c p m old) x = Memory.read d m x := by
  induction old with
  | nil => intros; rfl
  | cons b old ih =>
    intro p m x h
    rw [placeRotated, ih (p + 1) _ x fun q h1 h2 => h q (by omega) (by simp; omega)]
    exact Memory.read_write_other d m b (Ne.symm (h p (by omega) (by simp)))

/-- Every byte of the snapshot stands at its new place. -/
theorem placeRotated_moved (d : Byte) (len c : Nat) (old : List Byte) : ∀ (p : Nat) (m : Memory) (q : Nat)
    (_ : p + old.length ≤ len) (_ : p ≤ q) (hq : q < p + old.length),
    Memory.read d (placeRotated d len c p m old) ((q + c) % len) = old[q - p]'(by omega) := by
  induction old with
  | nil => intro p m q _ _ h; simp at h; omega
  | cons b old ih =>
    intro p m q hl hpq hq
    simp only [List.length_cons] at hl hq
    rw [placeRotated]
    by_cases h : q = p
    · subst h
      rw [placeRotated_other d len c old _ _ _ fun r h1 h2 he => by
        have := rotate_place_inj (by omega) (by omega) he; omega]
      simp [Memory.read_write_same]
    · obtain ⟨k, hk⟩ : ∃ k, q - p = k + 1 := ⟨q - p - 1, by omega⟩
      have h2 : q - (p + 1) = k := by omega
      rw [ih (p + 1) _ q (by omega) (by omega) (by omega)]
      simp [hk, h2]

theorem mem_placeRotated (d : Byte) {len c : Nat} (hlen : 0 < len) {old : List Byte} : ∀ {p : Nat} {m : Memory}
    {e : Host.Cell}, e ∈ placeRotated d len c p m old → (e.1 < len ∧ e.2 ∈ old) ∨ e ∈ m := by
  induction old with
  | nil => intro p m e h; exact .inr h
  | cons b old ih =>
    intro p m e h
    rcases ih h with ⟨h1, h2⟩ | h
    · exact .inl ⟨h1, by simp [h2]⟩
    · rcases Memory.mem_write h with rfl | h
      · exact .inl ⟨Nat.mod_lt _ hlen, by simp⟩
      · exact .inr h

theorem placeRotated_wf (d : Byte) (len c : Nat) (old : List Byte) : ∀ (p : Nat) {m : Memory}, Memory.wf d m →
    Memory.wf d (placeRotated d len c p m old) := by
  induction old with
  | nil => intro p m h; exact h
  | cons b old ih => intro p m h; exact ih _ (Memory.write_wf _ b h)

/-- The rotated buffer: byte `p` stands at `(p + c) mod L` (43_rotator.md R171), and nothing else has changed. -/
theorem State.rotateBytes_spec (s : State) (c : Nat) :
    s.Wrote (s.rotateBytes c) 0 s.length ∧
      ∀ p < s.length, (s.rotateBytes c).byteAt ((p + c) % s.length) = s.byteAt p := by
  refine ⟨⟨rfl, ?_, ?_⟩, ?_⟩
  · intro a ha
    rw [State.rotateBytes, State.withMem_byteAt]
    refine placeRotated_other _ _ _ _ _ _ _ fun q h1 h2 he => ?_
    have : (q + c) % s.length < s.length := Nat.mod_lt _ (by simp at h2; omega)
    omega
  · rintro ⟨h1, h2, h3, h4⟩
    have hpos : 0 < s.length := by simp [State.length]; omega
    refine ⟨h1, placeRotated_wf _ _ _ _ _ h2, fun e he => ?_, fun hr e he => ?_⟩
    · rcases mem_placeRotated _ hpos he with ⟨h, _⟩ | he
      · exact h
      · exact h3 e he
    · rcases mem_placeRotated _ hpos he with ⟨_, h⟩ | he
      · exact State.Inv.bytes_canonical ⟨h1, h2, h3, h4⟩ hr _ _ _ h
      · exact h4 hr e he
  · intro p hp
    rw [State.rotateBytes, State.withMem_byteAt, placeRotated_moved _ _ _ _ _ _ _ (by simp) (by omega) (by simpa)]
    simp [State.bytes_getElem]

theorem rotateCount_lt {n : Nat} (h : 1 ≤ n) (k : Int) : rotateCount n k < n := by
  have h1 := Int.emod_lt_of_pos k (show (0 : Int) < n by omega)
  have h2 := Int.emod_nonneg k (show (n : Int) ≠ 0 by omega)
  show (k % (n : Int)).toNat < n
  omega

/-- ROTATE's state, whatever its count: every byte at its place, nothing else changed. -/
theorem State.rotated_spec (s : State) (k : Int) :
    s.Wrote (s.rotated k) 0 s.length ∧
      ∀ p < s.length, (s.rotated k).byteAt ((p + 12 * rotateCount s.pixelCount k) % s.length) = s.byteAt p := by
  unfold State.rotated
  dsimp only
  split
  · rename_i h
    refine ⟨.refl _ _ _, fun p hp => ?_⟩
    rw [h, Nat.add_zero, Nat.mod_eq_of_lt hp]
  · exact s.rotateBytes_spec _

end Sys2Proof.Machine
end

