-- ==== Sys2Proof/Laws/Meanings.lean ====
section
/-! SUPPORT. What a command can do, said once: `Ends s o` lists the ways a command other than WRITE ends from `s`. Every
whole-machine claim about commands goes through it, and none unfolds a meaning. -/

namespace Sys2Proof.Machine

/-- The ways a command other than WRITE ends: a response that writes nothing, an error that is not the transport's, or an
empty response after writes inside BUF. -/
inductive Ends (s : State) : Out → Prop where
  | reads (d : Payload) : Ends s (respond d s)
  | fails (e : ErrorKind) (h : ∀ info, e ≠ .transportFailure info) : Ends s (raise e s)
  | writes (t : State) (h : s.Wrote t 0 s.length) : Ends s (respond .empty t)

/-- An error that a check of an operand can raise. -/
def ErrorKind.ofOperand (e : ErrorKind) : Prop :=
  e = .outOfRange ∨ e = .unsupportedOperation ∨ e = .shapeMismatch ∨ e = .typeMismatch ∨ e = .valueOutOfDomain ∨
    e = .dimensionality

theorem ErrorKind.ofOperand.notTransport {e : ErrorKind} (h : e.ofOperand) (info : Word) :
    e ≠ .transportFailure info := by
  rcases h with rfl | rfl | rfl | rfl | rfl | rfl <;> simp

theorem normIndex_error {n : Nat} {p : Int} {e : ErrorKind} (h : normIndex n p = .error e) : e = .outOfRange := by
  by_cases hv : validIndex n p
  · rw [normIndex_valid hv] at h; cases h
  · rw [normIndex_invalid hv] at h; injection h with h; exact h.symm

theorem resolvePair_error {n : Nat} {p c : Int} {e : ErrorKind} (h : resolvePair n p c = .error e) :
    e = .outOfRange := by
  by_cases hv : validIndex n p ∧ 0 ≤ c ∧ c < 3
  · rw [resolvePair_valid hv.1 hv.2] at h; cases h
  · rw [resolvePair_invalid hv] at h; injection h with h; exact h.symm

theorem resolveRange_error {n : Nat} {start stop step : Option Int} {e : ErrorKind}
    (h : resolveRange n start stop step = .error e) : e = .unsupportedOperation := by
  by_cases hs : step = none ∨ step = some 1
  · rw [resolveRange_step hs] at h; cases h
  · rw [resolveRange_badStep hs] at h; injection h with h; exact h.symm

theorem channelValue_error {c : Comp} {e : ErrorKind} (h : channelValue c = .error e) :
    e = .typeMismatch ∨ e = .valueOutOfDomain := by
  cases c with
  | nonInt => injection h with h; exact .inl h.symm
  | int v =>
    by_cases hv : 0 ≤ v ∧ v ≤ 255
    · rw [channelValue_valid hv] at h; cases h
    · rw [channelValue_invalid hv] at h; injection h with h; exact .inr h.symm

theorem scalarValue_error {v : Value} {e : ErrorKind} (h : scalarValue v = .error e) :
    e = .typeMismatch ∨ e = .valueOutOfDomain := by
  cases v with
  | scalar c => exact channelValue_error h
  | seq xs => injection h with h; exact .inl h.symm
  | seqSeq es => injection h with h; exact .inl h.symm

theorem scalarInt_error {v : Value} {e : ErrorKind} (h : scalarInt v = .error e) : e = .typeMismatch := by
  unfold scalarInt at h
  split at h <;> first | cases h; done | (injection h with h; exact h.symm)

/-- The errors of a triple's check (42_pixel_buffer.md R144). -/
theorem checkTriple_error {xs : List Comp} {e : ErrorKind} (h : checkTriple xs = .error e) :
    e = .shapeMismatch ∨ e = .typeMismatch ∨ e = .valueOutOfDomain := by
  match xs, h with
  | [], h => injection h with h; exact .inl h.symm
  | [_], h => injection h with h; exact .inl h.symm
  | [_, _], h => injection h with h; exact .inl h.symm
  | _ :: _ :: _ :: _ :: _, h => injection h with h; exact .inl h.symm
  | [x, y, z], h =>
    rw [checkTriple] at h
    cases hx : channelValue x with
    | error e' => rw [hx] at h; injection h with h; exact .inr (h ▸ channelValue_error hx)
    | ok c0 =>
      rw [hx] at h
      cases hy : channelValue y with
      | error e' => rw [hy] at h; injection h with h; exact .inr (h ▸ channelValue_error hy)
      | ok c1 =>
        rw [hy] at h
        cases hz : channelValue z with
        | error e' => rw [hz] at h; injection h with h; exact .inr (h ▸ channelValue_error hz)
        | ok c2 => rw [hz] at h; cases h

theorem checkTriples_error {es : List (List Comp)} {e : ErrorKind} (h : checkTriples es = .error e) :
    e = .shapeMismatch ∨ e = .typeMismatch ∨ e = .valueOutOfDomain := by
  induction es with
  | nil => cases h
  | cons x es ih =>
    rw [checkTriples] at h
    cases hx : checkTriple x with
    | error e' => rw [hx] at h; injection h with h; exact h ▸ checkTriple_error hx
    | ok t =>
      rw [hx] at h
      cases hes : checkTriples es with
      | error e' => rw [hes] at h; injection h with h; exact ih (h ▸ hes)
      | ok ts => rw [hes] at h; cases h

/-- A check whose errors are known, followed by a command that ends well, ends well. -/
theorem Ends.andThen {α : Type} {s : State} {x : Except ErrorKind α} {f : α → Out}
    (he : ∀ e, x = .error e → e.ofOperand) (hf : ∀ v, x = .ok v → Ends s (f v)) : Ends s (andThen s x f) := by
  cases x with
  | error e => exact .fails e (he e rfl).notTransport
  | ok v => exact hf v rfl

theorem ends_execExpand (x : Value) (s : State) : Ends s (execExpand x s) :=
  Ends.andThen (fun _ h => by rcases scalarValue_error h with rfl | rfl <;> simp [ErrorKind.ofOperand])
    fun _ _ => .reads _

theorem ends_getSingle {i : Nat} {s : State} (h : i < s.pixelCount) : Ends s (getSingle i s) := by
  rw [getSingle, State.readPixel_ok h]; exact .reads _

theorem ends_getPaired {i c : Nat} {s : State} (hi : i < s.pixelCount) (hc : c < 3) : Ends s (getPaired i c s) := by
  rw [getPaired, State.readCell_ok hi hc]; exact .reads _

theorem ends_getRange {a b : Nat} {s : State} (h : a ≤ b ∧ b ≤ s.pixelCount) : Ends s (getRange a b s) := by
  rw [getRange, State.readPixels_ok (by omega)]; exact .reads _

theorem ends_setSingle {i : Nat} (v : Value) {s : State} (h : i < s.pixelCount) : Ends s (setSingle i v s) := by
  cases v with
  | scalar c => exact .fails _ (by simp)
  | seqSeq es => exact .fails _ (by simp)
  | seq xs =>
    refine Ends.andThen (fun e he => ?_) fun t _ => ?_
    · rcases checkTriple_error he with rfl | rfl | rfl <;> simp [ErrorKind.ofOperand]
    · obtain ⟨u, w, f, _⟩ := State.writePixel_spec (s := s) t h
      rw [w]; exact .writes u (f.mono (by omega) (by simp [soff, State.length]; omega))

theorem ends_setPaired {i c : Nat} (v : Value) {s : State} (hi : i < s.pixelCount) (hc : c < 3) :
    Ends s (setPaired i c v s) := by
  refine Ends.andThen (fun e he => ?_) fun b _ => ?_
  · rcases scalarValue_error he with rfl | rfl <;> simp [ErrorKind.ofOperand]
  · obtain ⟨u, w, f, _⟩ := State.writeCell_spec (s := s) b hi hc
    rw [w]; exact .writes u (f.mono (by omega) (goff_bound hi hc))

/-- The writes of a broadcast to a range that is not empty: every slot holds the triple (42_pixel_buffer.md R151). -/
theorem State.broadcast_spec {s : State} {a b : Nat} (v : Triple) (hab : a < b) (hb : b ≤ s.pixelCount) :
    ∃ t, (do let u ← s.writePixel a v; u.tileCopy a (a + 1) (b - (a + 1))) = .ok t ∧
      s.Wrote t (soff a) (soff b) ∧ ∀ i, a ≤ i → i < b → t.holdsTriple i v := by
  obtain ⟨u, w, f, g⟩ := State.writePixel_spec (s := s) v (show a < s.pixelCount by omega)
  obtain ⟨t, w', f', g'⟩ := State.tileCopy_spec (v := v) (a := a) (b - (a + 1)) (s := u) (i := a + 1) (by omega)
    (by rw [f.pixelCount]; omega) g
  refine ⟨t, by rw [w]; exact w', (f.trans f').mono (by simp [soff]) (by simp [soff]; omega), fun i h1 h2 => ?_⟩
  by_cases h : i = a
  · subst h; exact f'.holdsTriple g (.inl (by simp [soff]; omega))
  · have := g' (i - (a + 1)) (by omega)
    rwa [show a + 1 + (i - (a + 1)) = i by omega] at this

theorem ends_setBroadcast {a b : Nat} (xs : List Comp) {s : State} (h : a ≤ b ∧ b ≤ s.pixelCount) :
    Ends s (setBroadcast a b xs s) := by
  refine Ends.andThen (fun e he => ?_) fun v _ => ?_
  · rcases checkTriple_error he with rfl | rfl | rfl <;> simp [ErrorKind.ofOperand]
  · split
    · exact .reads _
    · obtain ⟨t, w, f, _⟩ := State.broadcast_spec (s := s) v (show a < b by omega) h.2
      rw [w]; exact .writes t (f.mono (by omega) (by simp [soff, State.length]; omega))

theorem ends_setList {a b : Nat} (es : List (List Comp)) {s : State} (h : a ≤ b ∧ b ≤ s.pixelCount) :
    Ends s (setList a b es s) := by
  unfold setList
  split
  · exact .fails _ (by simp)
  · rename_i hl
    refine Ends.andThen (fun e he => ?_) fun ts hts => ?_
    · rcases checkTriples_error he with rfl | rfl | rfl <;> simp [ErrorKind.ofOperand]
    · have := checkTriples_length hts
      obtain ⟨t, w, f, _⟩ := State.writePixels_spec ts (s := s) (i := a) (by omega)
      rw [w]; exact .writes t (f.mono (by omega) (by simp [soff, State.length]; omega))

theorem ends_setRangeScalar (s : State) : Ends s (setRangeScalar s) := .fails _ (by simp)

theorem ends_execRotate (v : Value) (s : State) : Ends s (execRotate v s) :=
  Ends.andThen (fun e he => by rw [scalarInt_error he]; simp [ErrorKind.ofOperand])
    fun k _ => .writes _ (s.rotated_spec k).1

theorem normIndex_ofOperand {n : Nat} {p : Int} (e : ErrorKind) (h : normIndex n p = .error e) : e.ofOperand := by
  rw [normIndex_error h]; simp [ErrorKind.ofOperand]

theorem resolvePair_ofOperand {n : Nat} {p c : Int} (e : ErrorKind) (h : resolvePair n p c = .error e) :
    e.ofOperand := by
  rw [resolvePair_error h]; simp [ErrorKind.ofOperand]

theorem resolveRange_ofOperand {n : Nat} {start stop step : Option Int} (e : ErrorKind)
    (h : resolveRange n start stop step = .error e) : e.ofOperand := by
  rw [resolveRange_error h]; simp [ErrorKind.ofOperand]

/-- Every instruction but WRITE ends in one of the ways of `Ends`. -/
theorem exec_ends (i : Instr) (s : State) (h : i ≠ .write) : Ends s (exec i s) := by
  cases i with
  | expand x => exact ends_execExpand x s
  | compress b0 b1 b2 b3 => exact .reads _
  | getP p => exact Ends.andThen normIndex_ofOperand fun _ hv => ends_getSingle (normIndex_lt hv)
  | getC p c =>
    exact Ends.andThen resolvePair_ofOperand fun _ hv =>
      ends_getPaired (resolvePair_bounds hv).1 (resolvePair_bounds hv).2
  | getR a b c => exact Ends.andThen resolveRange_ofOperand fun _ hv => ends_getRange (resolveRange_bounds hv)
  | getA3 => exact .fails _ (by simp)
  | getA4 => exact .fails _ (by simp)
  | getA5 => exact .fails _ (by simp)
  | getA6 => exact .fails _ (by simp)
  | getA7 => exact .fails _ (by simp)
  | getA8 => exact .fails _ (by simp)
  | setP p v => exact Ends.andThen normIndex_ofOperand fun _ hv => ends_setSingle v (normIndex_lt hv)
  | setC p c v =>
    exact Ends.andThen resolvePair_ofOperand fun _ hv =>
      ends_setPaired v (resolvePair_bounds hv).1 (resolvePair_bounds hv).2
  | setRB a b c xs => exact Ends.andThen resolveRange_ofOperand fun _ hv => ends_setBroadcast xs (resolveRange_bounds hv)
  | setRL a b c es => exact Ends.andThen resolveRange_ofOperand fun _ hv => ends_setList es (resolveRange_bounds hv)
  | setRX0 a b c v => exact Ends.andThen resolveRange_ofOperand fun _ _ => ends_setRangeScalar s
  | setRX3 a b c => exact Ends.andThen resolveRange_ofOperand fun _ _ => ends_setRangeScalar s
  | setA3 v => exact .fails _ (by simp)
  | setA4 v => exact .fails _ (by simp)
  | setA5 v => exact .fails _ (by simp)
  | setA6 v => exact .fails _ (by simp)
  | setA7 v => exact .fails _ (by simp)
  | setA8 v => exact .fails _ (by simp)
  | count => exact .reads _
  | rotate v => exact ends_execRotate v s
  | write => exact absurd rfl h

end Sys2Proof.Machine
end

