-- ==== Sys2Proof/Laws/PerInstr.lean ====
section
/-! SUPPORT. Facts about every instruction as syntax, one lemma per constructor. Family HeaderWord: the header word of an
instruction decodes to that instruction's header, and an encoding is one header word before the operand words. -/

namespace Sys2Proof.Laws.HeaderWord

/-- The first word of an encoding spells the instruction's header (30_encoding.md R70, R71), and the rest are its operands. -/
def Statement (i : Instr) : Prop :=
  decodeHeader (encodeHeader i.header) = some i.header ∧ encode i = encodeHeader i.header :: i.operandWords

/-- What every lemma of the family is an instance of. -/
theorem all (i : Instr) : Statement i := ⟨decodeHeader_encodeHeader _, rfl⟩

theorem expand (x : Value) : Statement (.expand x) := all _
theorem compress (b0 : Byte) (b1 : Byte) (b2 : Byte) (b3 : Byte) : Statement (.compress b0 b1 b2 b3) := all _
theorem getP (p : Int) : Statement (.getP p) := all _
theorem getC (p : Int) (c : Int) : Statement (.getC p c) := all _
theorem getR (start : Option Int) (stop : Option Int) (step : Option Int) : Statement (.getR start stop step) := all _
theorem getA3 : Statement .getA3 := all _
theorem getA4 : Statement .getA4 := all _
theorem getA5 : Statement .getA5 := all _
theorem getA6 : Statement .getA6 := all _
theorem getA7 : Statement .getA7 := all _
theorem getA8 : Statement .getA8 := all _
theorem setP (p : Int) (v : Value) : Statement (.setP p v) := all _
theorem setC (p : Int) (c : Int) (v : Value) : Statement (.setC p c v) := all _
theorem setRB (start : Option Int) (stop : Option Int) (step : Option Int) (xs : List Comp) : Statement (.setRB start stop step xs) := all _
theorem setRL (start : Option Int) (stop : Option Int) (step : Option Int) (es : List (List Comp)) : Statement (.setRL start stop step es) := all _
theorem setRX0 (start : Option Int) (stop : Option Int) (step : Option Int) (v : Int) : Statement (.setRX0 start stop step v) := all _
theorem setRX3 (start : Option Int) (stop : Option Int) (step : Option Int) : Statement (.setRX3 start stop step) := all _
theorem setA3 (v : Value) : Statement (.setA3 v) := all _
theorem setA4 (v : Value) : Statement (.setA4 v) := all _
theorem setA5 (v : Value) : Statement (.setA5 v) := all _
theorem setA6 (v : Value) : Statement (.setA6 v) := all _
theorem setA7 (v : Value) : Statement (.setA7 v) := all _
theorem setA8 (v : Value) : Statement (.setA8 v) := all _
theorem count : Statement .count := all _
theorem rotate (v : Value) : Statement (.rotate v) := all _
theorem write : Statement .write := all _

end Sys2Proof.Laws.HeaderWord
end

