-- ==== Sys2Proof/Laws/Port.lean ====
section
/-! SUPPORT. What serving a move can do, said once: `MoveEnds` lists the ways, and `runMove_ends` says there are no
others. -/

namespace Sys2Proof.Machine

/-- A resolved address lies inside the buffer (41_index_resolver.md R130). -/
def Resolved.inside (n : Nat) : Resolved → Prop
  | .single i => i < n
  | .paired i c => i < n ∧ c < 3
  | .range a b => a ≤ b ∧ b ≤ n

theorem resolveOne_ok {n : Nat} {d : Dim} {r : Resolved} (h : resolveOne n d = .ok r) : r.inside n := by
  cases d with
  | idx c =>
    cases c with
    | nonInt => cases h
    | int p =>
      rw [resolveOne] at h
      cases hp : normIndex n p with
      | error e => rw [hp] at h; cases h
      | ok i => rw [hp] at h; injection h with h; subst h; exact normIndex_lt hp
  | rng s e t =>
    rw [resolveOne] at h
    cases hs : intBound s with
    | error e' => rw [hs] at h; cases h
    | ok s' =>
      rw [hs] at h
      cases he : intBound e with
      | error e' => rw [he] at h; cases h
      | ok e' =>
        rw [he] at h
        cases ht : intBound t with
        | error e' => rw [ht] at h; cases h
        | ok t' =>
          rw [ht] at h
          change (resolveRange n s' e' t' >>= _) = _ at h
          cases hr : resolveRange n s' e' t' with
          | error x => rw [hr] at h; cases h
          | ok ab => rw [hr] at h; injection h with h; subst h; exact resolveRange_bounds hr

theorem resolveTwo_ok {n : Nat} {d e : Dim} {r : Resolved} (h : resolveTwo n d e = .ok r) : r.inside n := by
  match d, e, h with
  | .rng _ _ _, _, h => cases h
  | .idx _, .rng _ _ _, h => cases h
  | .idx .nonInt, .idx _, h => cases h
  | .idx (.int _), .idx .nonInt, h => cases h
  | .idx (.int p), .idx (.int c), h =>
    rw [resolveTwo] at h
    cases hp : resolvePair n p c with
    | error e => rw [hp] at h; cases h
    | ok ic => rw [hp] at h; injection h with h; subst h; exact resolvePair_bounds hp

/-- What `resolve` answers lies inside the buffer. -/
theorem resolve_ok {n : Nat} {addr : Addr} {r : Resolved} (h : resolve n addr = .ok r) : r.inside n := by
  match addr, h with
  | [], h => cases h
  | [d], h => exact resolveOne_ok h
  | [d, e], h => exact resolveTwo_ok h
  | _ :: _ :: _ :: _, h => cases h

theorem intBound_error {c : Option Comp} {e : ErrorKind} (h : intBound c = .error e) : e = .typeMismatch := by
  match c, h with
  | none, h => cases h
  | some (.int _), h => cases h
  | some .nonInt, h => injection h with h; exact h.symm

theorem resolveOne_error {n : Nat} {d : Dim} {e : ErrorKind} (h : resolveOne n d = .error e) : e.ofOperand := by
  cases d with
  | idx c =>
    cases c with
    | nonInt => injection h with h; subst h; simp [ErrorKind.ofOperand]
    | int p =>
      rw [resolveOne] at h
      cases hp : normIndex n p with
      | error e' => rw [hp] at h; injection h with h; exact h ▸ normIndex_ofOperand _ hp
      | ok i => rw [hp] at h; cases h
  | rng s b t =>
    have tm : ∀ e' : ErrorKind, e' = .typeMismatch → e'.ofOperand := by rintro _ rfl; simp [ErrorKind.ofOperand]
    rw [resolveOne] at h
    cases hs : intBound s with
    | error e' => rw [hs] at h; injection h with h; exact h ▸ tm _ (intBound_error hs)
    | ok s' =>
      rw [hs] at h
      cases he : intBound b with
      | error e' => rw [he] at h; injection h with h; exact h ▸ tm _ (intBound_error he)
      | ok e' =>
        rw [he] at h
        cases ht : intBound t with
        | error e' => rw [ht] at h; injection h with h; exact h ▸ tm _ (intBound_error ht)
        | ok t' =>
          rw [ht] at h
          change (resolveRange n s' e' t' >>= _) = _ at h
          cases hr : resolveRange n s' e' t' with
          | error e' => rw [hr] at h; injection h with h; exact h ▸ resolveRange_ofOperand _ hr
          | ok ab => rw [hr] at h; cases h

/-- The errors of `resolve` are errors of operands. -/
theorem resolve_error {n : Nat} {addr : Addr} (e : ErrorKind) (h : resolve n addr = .error e) : e.ofOperand := by
  match addr, h with
  | [], h => injection h with h; subst h; simp [ErrorKind.ofOperand]
  | [d], h => exact resolveOne_error h
  | [.rng _ _ _, _], h => injection h with h; subst h; simp [ErrorKind.ofOperand]
  | [.idx _, .rng _ _ _], h => injection h with h; subst h; simp [ErrorKind.ofOperand]
  | [.idx .nonInt, .idx _], h => injection h with h; subst h; simp [ErrorKind.ofOperand]
  | [.idx (.int _), .idx .nonInt], h => injection h with h; subst h; simp [ErrorKind.ofOperand]
  | [.idx (.int p), .idx (.int c)], h =>
    change (resolvePair n p c >>= _) = _ at h
    cases hp : resolvePair n p c with
    | error e' => rw [hp] at h; injection h with h; exact h ▸ resolvePair_ofOperand _ hp
    | ok ic => rw [hp] at h; cases h
  | _ :: _ :: _ :: _, h => injection h with h; subst h; simp [ErrorKind.ofOperand]

/-- Every request but WRITE ends in one of the ways of `Ends`. -/
theorem perform_ends (r : Request) (s : State) (h : r ≠ .write) : Ends s (perform r s) := by
  cases r with
  | expand x => exact ends_execExpand x s
  | compress b0 b1 b2 b3 => exact .reads _
  | get addr =>
    refine Ends.andThen resolve_error fun r hr => ?_
    have := resolve_ok hr
    cases r with
    | single i => exact ends_getSingle this
    | paired i c => exact ends_getPaired this.1 this.2
    | range a b => exact ends_getRange this
  | set addr v =>
    refine Ends.andThen resolve_error fun r hr => ?_
    have := resolve_ok hr
    cases r with
    | single i => exact ends_setSingle v this
    | paired i c => exact ends_setPaired v this.1 this.2
    | range a b =>
      cases v with
      | seq xs => exact ends_setBroadcast xs this
      | seqSeq es => exact ends_setList es this
      | scalar c => exact ends_setRangeScalar s
  | count => exact .reads _
  | rotate v => exact ends_execRotate v s
  | write => exact absurd rfl h

/-- The state after a WRITE that the transport answered. -/
def State.transmitted (s : State) (a : TransportAnswer) (txs : List TxsInput) (draws : Nat) : State :=
  { s with txs := txs, draws := draws, trace := s.trace ++ [.tx (s.bytes 0 s.length), .response (answerResponse a)] }

/-- What a WRITE can do. -/
theorem execWrite_cases (s : State) :
    (∃ (a : TransportAnswer) (txs : List TxsInput) (draws : Nat), execWrite s = .next (s.transmitted a txs draws)) ∨
      (execWrite s = .fault .transportSilent ∧ ¬s.transportAnswers) := by
  unfold execWrite State.nextAnswer
  rcases h : s.txs with _ | ⟨x, rest⟩
  · exact .inl ⟨Config.transportAnswer s.draws, [], s.draws + 1, by simp [State.transmitted, State.emit, State.bytes, State.byteAt, State.length]⟩
  · cases x with
    | answer fail info =>
      exact .inl ⟨readTxs fail info, rest, s.draws,
        by simp [State.transmitted, State.emit, State.bytes, State.byteAt, State.length, TxsInput.read]⟩
    | silent => exact .inr ⟨rfl, by simp [State.transportAnswers, h]⟩

/-- The ways a move ends. -/
inductive MoveEnds (m : HostMove) (s : State) : Out → Prop where
  | command (o : Out) (hm : m.isWrite = false) (hr : m ≠ .reset) (h : Ends s o) : MoveEnds m s o
  | transmits (a : TransportAnswer) (txs : List TxsInput) (draws : Nat) (hm : m.isWrite = true) :
      MoveEnds m s (.next (s.transmitted a txs draws))
  | silent (hm : m.isWrite = true) (h : ¬s.transportAnswers) : MoveEnds m s (.fault .transportSilent)
  | refills (hm : m = .reset) : MoveEnds m s (.next s.refill)
  | refuses (x : Refusal) (h : m.legal s.pixelCount = false) : MoveEnds m s (.refused x)

theorem MoveEnds.ofWrite {m : HostMove} {s : State} (h : m.isWrite = true) : MoveEnds m s (execWrite s) := by
  rcases execWrite_cases s with ⟨a, x, d, e⟩ | ⟨e, hn⟩
  · rw [e]; exact .transmits a x d h
  · rw [e]; exact .silent h hn

/-- There is no other way for a move to end. -/
theorem runMove_ends (m : HostMove) (s : State) : MoveEnds m s (runMove m s) := by
  cases m with
  | reset => exact .refills rfl
  | request r =>
    by_cases h : r = .write
    · subst h; exact .ofWrite rfl
    · exact .command _ (by simpa [HostMove.isWrite] using h) (by simp) (perform_ends r s h)
  | command words =>
    by_cases hn : s.pixelCount ≤ Config.maxPixels
    · have e : runMove (.command words) s = runCommand words s := by simp [runMove, hn]
      rw [e, runCommand]
      cases hd : decode words with
      | instr i =>
        by_cases h : i = .write
        · subst h; exact .ofWrite (by simp [HostMove.isWrite, hd])
        · exact .command _ (by simpa [HostMove.isWrite, hd] using h) (by simp) (exec_ends i s h)
      | illegalHeader => exact .command _ (by simp [HostMove.isWrite, hd]) (by simp) (.fails _ (by simp))
      | tooShort => exact .refuses _ (by simp [HostMove.legal, hd])
      | tooLong => exact .refuses _ (by simp [HostMove.legal, hd])
    · have e : runMove (.command words) s = .refused .noBinaryInterface := by simp [runMove, hn]
      rw [e]; exact .refuses _ (by simp [HostMove.legal, hn])

end Sys2Proof.Machine
end

