-- ==== Sys2Proof/Tests/Slice0.lean ====
section
/-! SUPPORT. The model's own tests, each a named theorem. Expected values come from the spec: the tables and worked examples of
95_test_vectors.md (TV), the field layout of 30_encoding.md (R71 to R75), or hand calculation from the rule named. -/

open Sys2Proof Sys2Proof.Machine

namespace Sys2Proof.Tests

/-! ## Well-formedness: one ill-formed term for each check -/

theorem test_wf_integer_above : (Instr.getP 2147483648).wf = false := by decide
theorem test_wf_integer_below : (Instr.getP (-2147483649)).wf = false := by decide
theorem test_wf_integer_ends : (Instr.getC 2147483647 (-2147483648)).wf = true := by decide
theorem test_wf_channel_word : (Instr.getC 0 2147483648).wf = false := by decide
theorem test_wf_bounds :
    (Instr.getR (some 2147483648) none none).wf = false ∧ (Instr.getR none (some 2147483648) none).wf = false ∧
    (Instr.getR none none (some 2147483648)).wf = false ∧ (Instr.getR none none none).wf = true := by decide
theorem test_wf_nonInt_in_sequence : (Instr.setP 0 (.seq [.int 1, .nonInt, .int 3])).wf = false := by decide
theorem test_wf_integer_in_sequence : (Instr.setRB none none none [.int 2147483648]).wf = false := by decide
theorem test_wf_element : (Instr.setRL none none none [[.int 1], [.nonInt]]).wf = false := by decide
theorem test_wf_value_elements : (Instr.rotate (.seqSeq [[.int (-2147483649)]])).wf = false := by decide
theorem test_wf_scalar : (Instr.rotate (.scalar (.int 2147483648))).wf = false ∧
    (Instr.rotate (.scalar .nonInt)).wf = true := by decide
theorem test_wf_setRX0 : (Instr.setRX0 none none none 2147483648).wf = false := by decide
theorem test_wf_set_index : (Instr.setP 2147483648 (.scalar .nonInt)).wf = false ∧
    (Instr.setC 0 2147483648 (.scalar .nonInt)).wf = false := by decide
theorem test_wf_ignored_value : (Instr.setA6 (.seq [.nonInt])).wf = false := by decide
theorem test_wf_count (xs : List Comp) (h : xs.length = 4294967296) : (Instr.rotate (.seq xs)).wf = false := by
  simp [Instr.wf, Value.wf, seqWf, fitsCount, h]
theorem test_wf_count_of_elements (es : List (List Comp)) (h : es.length = 4294967296) :
    (Instr.setRL none none none es).wf = false := by simp [Instr.wf, fitsCount, h]

/-! ## Decoding: one word sequence for each constructor, its header OPC, AK, S, E, T, VK, ZERO (R71) written bit by bit -/

theorem test_decode_expand : decode [0b00000001_0000_0_0_0_00_000000000000000, 0x80] =
    .instr (.expand (.scalar (.int 128))) := by decide
theorem test_decode_expand_kinds :
    decode [0b00000001_0000_0_0_0_01_000000000000000, 2, 7, 8] = .instr (.expand (.seq [.int 7, .int 8])) ∧
    decode [0b00000001_0000_0_0_0_10_000000000000000, 2, 1, 7, 0] = .instr (.expand (.seqSeq [[.int 7], []])) ∧
    decode [0b00000001_0000_0_0_0_11_000000000000000] = .instr (.expand (.scalar .nonInt)) := by decide
theorem test_decode_compress : decode [0b00000010_0000_0_0_0_00_000000000000000, 0xC88C4401] =
    .instr (.compress 0xC8 0x8C 0x44 0x01) := by decide
theorem test_decode_getP : decode [0b00000011_0000_0_0_0_00_000000000000000, 0xFFFFFFFF] = .instr (.getP (-1)) := by
  decide
theorem test_decode_getC : decode [0b00000011_0001_0_0_0_00_000000000000000, 3, 2] = .instr (.getC 3 2) := by decide
theorem test_decode_getR :
    decode [0b00000011_0010_1_1_1_00_000000000000000, 0, 4, 1] = .instr (.getR (some 0) (some 4) (some 1)) ∧
    decode [0b00000011_0010_1_0_0_00_000000000000000, 7] = .instr (.getR (some 7) none none) ∧
    decode [0b00000011_0010_0_1_0_00_000000000000000, 7] = .instr (.getR none (some 7) none) ∧
    decode [0b00000011_0010_0_0_1_00_000000000000000, 7] = .instr (.getR none none (some 7)) := by decide
theorem test_decode_getA :
    decode [0b00000011_0011_0_0_0_00_000000000000000] = .instr .getA3 ∧
    decode [0b00000011_0100_0_0_0_00_000000000000000] = .instr .getA4 ∧
    decode [0b00000011_0101_0_0_0_00_000000000000000] = .instr .getA5 ∧
    decode [0b00000011_0110_0_0_0_00_000000000000000] = .instr .getA6 ∧
    decode [0b00000011_0111_0_0_0_00_000000000000000] = .instr .getA7 ∧
    decode [0b00000011_1000_0_0_0_00_000000000000000] = .instr .getA8 := by decide
theorem test_decode_setP : decode [0b00000100_0000_0_0_0_01_000000000000000, 1, 3, 0x80, 0, 0x100] =
    .instr (.setP 1 (.seq [.int 128, .int 0, .int 256])) := by decide
theorem test_decode_setC : decode [0b00000100_0001_0_0_0_00_000000000000000, 0xFFFFFFFF, 2, 0xFF] =
    .instr (.setC (-1) 2 (.scalar (.int 255))) := by decide
theorem test_decode_setRB : decode [0b00000100_0010_1_1_0_01_000000000000000, 0, 4, 3, 0, 0, 0x28] =
    .instr (.setRB (some 0) (some 4) none [.int 0, .int 0, .int 40]) := by decide
theorem test_decode_setRL : decode [0b00000100_0010_1_1_0_10_000000000000000, 1, 3, 2, 3, 1, 2, 3, 1, 4] =
    .instr (.setRL (some 1) (some 3) none [[.int 1, .int 2, .int 3], [.int 4]]) := by decide
theorem test_decode_setRX0 : decode [0b00000100_0010_1_1_0_00_000000000000000, 0, 4, 7] =
    .instr (.setRX0 (some 0) (some 4) none 7) := by decide
theorem test_decode_setRX3 : decode [0b00000100_0010_0_0_1_11_000000000000000, 5] =
    .instr (.setRX3 none none (some 5)) := by decide
theorem test_decode_setA :
    decode [0b00000100_0011_0_0_0_00_000000000000000, 5] = .instr (.setA3 (.scalar (.int 5))) ∧
    decode [0b00000100_0100_0_0_0_11_000000000000000] = .instr (.setA4 (.scalar .nonInt)) ∧
    decode [0b00000100_0101_0_0_0_01_000000000000000, 1, 9] = .instr (.setA5 (.seq [.int 9])) ∧
    decode [0b00000100_0110_0_0_0_01_000000000000000, 3, 1, 2, 3] = .instr (.setA6 (.seq [.int 1, .int 2, .int 3])) ∧
    decode [0b00000100_0111_0_0_0_10_000000000000000, 1, 1, 6] = .instr (.setA7 (.seqSeq [[.int 6]])) ∧
    decode [0b00000100_1000_0_0_0_00_000000000000000, 1] = .instr (.setA8 (.scalar (.int 1))) := by decide
theorem test_decode_count : decode [0b00000101_0000_0_0_0_00_000000000000000] = .instr .count := by decide
theorem test_decode_rotate : decode [0b00000110_0000_0_0_0_00_000000000000000, 0xFFFFFFFE] =
    .instr (.rotate (.scalar (.int (-2)))) := by decide
theorem test_decode_write : decode [0b00000111_0000_0_0_0_00_000000000000000] = .instr .write := by decide

/-- The illegal headers of TV section 2.7. -/
theorem test_illegal_headers : [0x00000000, 0x08000000, 0xFF000000, 0x03000001, 0x03900000, 0x03F00000, 0x03080000,
    0x03120000, 0x03008000, 0x05100000, 0x07008000, 0x02010000, 0x01100000, 0x06040000, 0x04340000].all
      (fun w : Word => decode [w] == .illegalHeader) = true := by decide

/-- Sequences that are no command (R80). -/
theorem test_wrong_length : decode [] = .tooShort ∧ decode [0x03000000] = .tooShort ∧ decode [0x05000000, 0] = .tooLong ∧
    decode [0x04008000, 1, 3, 0, 0] = .tooShort ∧ decode [0x00000000, 0] = .tooLong := by decide

/-- An encoding written by the encoder: SET.RL [0:2], [(1,1,1)] (TV section 2.7). -/
theorem test_encode : encode (.setRL (some 0) (some 2) none [[.int 1, .int 1, .int 1]]) =
    [0x042D0000, 0, 2, 1, 3, 1, 1, 1] := by decide

/-- A table word of the table's 32 bits, with operand words of zeros, and with its operand word given. -/
theorem test_table_words : decodeTableWord 32 0x03000000 = some (.getP 0) ∧
    decodeTableWord 64 0x0000000703000000 = some (.getP 7) ∧ decodeTableWord 32 0x04210000 = some (.setRL none none none []) ∧
    decodeTableWord 32 0x03900000 = none := by decide

/-! ## One step -/

/-- An instance after reset whose transport answers `ok`, about to serve one command. -/
def sent (n : Nat) (words : List Word) : State :=
  { State.init n .x88 with inputs := [.command words], txs := [.answer 0 0] }

/-- `N = 4`, pixels 0 to 3 holding (1,1,1) to (4,4,4) (the start state of TV section 2.5). -/
def counted : State :=
  { State.init 4 .x88 with mem :=
      [(3, 0x8C), (7, 0x8C), (11, 0x8C), (15, 0xC8), (19, 0xC8), (23, 0xC8), (27, 0xCC), (31, 0xCC), (35, 0xCC),
       (38, 0x8C), (42, 0x8C), (46, 0x8C)] }

/-- The words on RSP after a step. -/
def rsp : Out → Option (List Word)
  | .next s => some s.rspPort
  | .fault _ => none
  | .refused _ => none

/-- The memory after a step. -/
def buf : Out → Option Memory
  | .next s => some s.mem
  | .fault _ => none
  | .refused _ => none

/-- The bytes on TX after a step. -/
def tx : Out → Option (List Byte)
  | .next s => some s.txPort
  | .fault _ => none
  | .refused _ => none

theorem test_expand : rsp (step (sent 4 [0x01000000, 128])) = some [0, 1, 0xC8888888] ∧
    rsp (step (sent 4 [0x01000000, 300])) = some [5, 0] ∧ rsp (step (sent 4 [0x01018000])) = some [4, 0] := by decide
theorem test_expand_order : (expand 0x1B).bytes = [0x88, 0x8C, 0xC8, 0xCC] := by decide
theorem test_compress : rsp (step (sent 4 [0x02000000, 0x888CC8CD])) = some [0, 1, 27] ∧
    rsp (step (sent 4 [0x02000000, 0x40040000])) = some [0, 1, 144] := by decide
theorem test_getP : rsp (exec (.getP (-3)) counted) = some [0, 3, 2, 2, 2] ∧
    rsp (exec (.getP 4) counted) = some [1, 0] ∧ rsp (exec (.getP (-5)) counted) = some [1, 0] := by decide
theorem test_getC : rsp (exec (.getC 3 2) counted) = some [0, 1, 4] ∧ rsp (exec (.getC 0 3) counted) = some [1, 0] ∧
    rsp (exec (.getC 0 (-1)) counted) = some [1, 0] := by decide
theorem test_getR : rsp (exec (.getR (some 1) (some (-1)) none) counted) = some [0, 6, 2, 2, 2, 3, 3, 3] ∧
    rsp (exec (.getR (some (-100)) (some 1) (some 1)) counted) = some [0, 3, 1, 1, 1] ∧
    rsp (exec (.getR (some 3) (some 1) none) counted) = some [0, 0] := by decide
theorem test_getR_step : rsp (exec (.getR none none (some 2)) counted) = some [2, 0] ∧
    rsp (exec (.getR (some 4) (some 2) (some 3)) counted) = some [2, 0] := by decide
theorem test_getA : rsp (exec .getA3 counted) = some [4, 0] ∧ rsp (exec .getA4 counted) = some [4, 0] ∧
    rsp (exec .getA5 counted) = some [2, 0] ∧ rsp (exec .getA6 counted) = some [6, 0] ∧
    rsp (exec .getA7 counted) = some [6, 0] ∧ rsp (exec .getA8 counted) = some [4, 0] := by decide
theorem test_setP : buf (step (sent 4 [0x04008000, 2, 3, 17, 34, 51])) =
    some [(25, 0x8C), (27, 0x8C), (29, 0xC8), (31, 0xC8), (33, 0xCC), (35, 0xCC)] := by decide
theorem test_setP_errors : rsp (exec (.setP 1 (.seq [.int 300, .nonInt, .int 0])) counted) = some [5, 0] ∧
    rsp (exec (.setP 1 (.seq [.nonInt, .int 300, .int 0])) counted) = some [4, 0] ∧
    rsp (exec (.setP 1 (.seq [.nonInt, .int 300])) counted) = some [3, 0] ∧
    rsp (exec (.setP 10 (.seq [.int 1, .int 2])) counted) = some [1, 0] := by decide
theorem test_setC : buf (step (sent 4 [0x04100000, 0xFFFFFFFF, 2, 255])) =
    some [(44, 0xCC), (45, 0xCC), (46, 0xCC), (47, 0xCC)] := by decide
theorem test_setC_errors : rsp (exec (.setC 1 5 (.scalar (.int 300))) counted) = some [1, 0] ∧
    rsp (exec (.setC 1 1 (.scalar (.int 256))) counted) = some [5, 0] ∧
    rsp (exec (.setC 1 1 (.seq [.int 7])) counted) = some [4, 0] := by decide
theorem test_setRB : buf (step (sent 4 [0x042C8000, 2, 100, 3, 0, 255, 0])) =
    some [(28, 0xCC), (29, 0xCC), (30, 0xCC), (31, 0xCC), (40, 0xCC), (41, 0xCC), (42, 0xCC), (43, 0xCC)] := by decide
theorem test_setRB_empty : buf (step (sent 4 [0x042C8000, 3, 1, 3, 9, 9, 9])) = some [] ∧
    rsp (step (sent 4 [0x042C8000, 2, 2, 3, 1, 2, 300])) = some [5, 0] := by decide
theorem test_setRL : buf (step (sent 4 [0x042D0000, 1, 3, 2, 3, 1, 2, 3, 3, 4, 5, 6])) =
    some [(15, 0x8C), (19, 0xC8), (23, 0xCC), (26, 0x8C), (30, 0x8C), (31, 0x8C), (34, 0x8C), (35, 0xC8)] := by decide
theorem test_setRL_errors : rsp (step (sent 4 [0x042D0000, 0, 2, 1, 3, 1, 1, 1])) = some [3, 0] ∧
    buf (step (sent 4 [0x042D0000, 0, 2, 2, 3, 1, 1, 1, 3, 2, 2, 300])) = some [] ∧
    rsp (step (sent 4 [0x042D0000, 0, 2, 2, 3, 1, 1, 256, 3, 2, 2, 2])) = some [5, 0] := by decide
theorem test_setRX : rsp (exec (.setRX0 (some 0) (some 4) none 7) counted) = some [3, 0] ∧
    rsp (exec (.setRX3 (some 0) (some 4) none) counted) = some [3, 0] ∧
    rsp (exec (.setRX3 (some 0) (some 4) (some 2)) counted) = some [2, 0] := by decide
theorem test_setA (v : Value) : rsp (exec (.setA3 v) counted) = some [4, 0] ∧
    rsp (exec (.setA4 v) counted) = some [4, 0] ∧ rsp (exec (.setA5 v) counted) = some [2, 0] ∧
    rsp (exec (.setA6 v) counted) = some [6, 0] ∧ rsp (exec (.setA7 v) counted) = some [6, 0] ∧
    rsp (exec (.setA8 v) counted) = some [4, 0] := by
  exact ⟨rfl, rfl, rfl, rfl, rfl, rfl⟩
theorem test_count : rsp (step (sent 5 [0x05000000])) = some [0, 1, 5] := by decide
theorem test_rotate : buf (exec (.rotate (.scalar (.int (-7)))) counted) =
    some [(2, 0x8C), (6, 0x8C), (10, 0x8C), (15, 0x8C), (19, 0x8C), (23, 0x8C), (27, 0xC8), (31, 0xC8), (35, 0xC8),
      (39, 0xCC), (43, 0xCC), (47, 0xCC)] := by decide
theorem test_rotate_identity : buf (exec (.rotate (.scalar (.int (-4)))) counted) = some counted.mem ∧
    rsp (step (sent 4 [0x06018000])) = some [4, 0] := by decide
theorem test_write : tx (step (sent 1 [0x07000000])) =
    some [0x88, 0x88, 0x88, 0x88, 0x88, 0x88, 0x88, 0x88, 0x88, 0x88, 0x88, 0x88] ∧
    rsp (step (sent 1 [0x07000000])) = some [0, 0] := by decide
theorem test_write_failure : rsp (exec .write { (State.init 1 .x88) with txs := [.answer 1 0xDEAD0001] }) =
    some [7, 1, 0xDEAD0001] := by decide
/-- The word on TXS is meaningful only with `fail` (R188). -/
theorem test_txs_word_ignored_with_ok :
    rsp (exec .write { (State.init 1 .x88) with txs := [.answer 0 0xDEAD0001] }) = some [0, 0] := by decide
/-- TV program P6: with RESET_BYTE = 0x00 the bytes are 0x00 and the cells still read 0. -/
theorem test_reset_byte_zero : tx (exec .write { (State.init 1 .x00) with txs := [.answer 0 0] }) =
    some [0, 0, 0, 0, 0, 0, 0, 0, 0, 0, 0, 0] ∧ rsp (exec (.getP 0) (State.init 1 .x00)) = some [0, 3, 0, 0, 0] := by
  decide
theorem test_illegal_header_answer : rsp (step (sent 4 [0x03900000])) = some [8, 0] := by decide
/-- RST between commands refills BUF and answers nothing (R223). -/
theorem test_rst : buf (step { counted with inputs := [.reset] }) = some [] ∧
    rsp (step { counted with inputs := [.reset] }) = some [] := by decide
/-- Level-1 addresses of TV section 2.3: more than two dimensions, a range in a pair, a NonInt bound before a bad step. -/
theorem test_level1_get :
    rsp (perform (.get [.idx .nonInt, .idx (.int 9), .idx (.int 9)]) counted) = some [6, 0] ∧
    rsp (perform (.get [.rng (some (.int 0)) (some (.int 2)) none, .idx .nonInt]) counted) = some [2, 0] ∧
    rsp (perform (.get [.rng (some .nonInt) none (some (.int 2))]) counted) = some [4, 0] ∧
    rsp (perform (.get [.idx (.int (-1))]) counted) = some [0, 3, 4, 4, 4] := by decide
/-- The first step after reset runs the table word placed for it. -/
theorem test_first_step : rsp (step (State.reset.withFetchWord 32 0x05000000)) = some [0, 1, 4] ∧
    rsp (step (State.reset.withFetchWord 32 0x04008000)) = some [3, 0] := by decide

/-! ## The hypotheses of the statements can be met: one witness for each statement that has hypotheses -/

/-- A good state that is not the reset state: `N = 4`, pixel 1 holding (128, 0, 0), a served response, a pending move. -/
def sample : State :=
  { State.init 4 .x88 with
    mem := [(12, 0xC8)], inputs := [.command [0x05000000]], txs := [.answer 1 7],
    trace := [.response (.ok .empty)] }

theorem sample_inv : sample.Inv := by unfold State.Inv; decide
theorem counted_inv : counted.Inv := by unfold State.Inv; decide

theorem valid_boundaries : validIndex 4 (-4) ∧ validIndex 4 (-1) ∧ validIndex 4 0 ∧ validIndex 4 3 ∧
    ¬validIndex 4 (-5) ∧ ¬validIndex 4 4 := by unfold validIndex; decide

theorem range_of_two (i : Nat) : i ∈ [1, 2] ↔ inRange 4 (some 1) (some (-1)) i := by
  simp [inRange, boundValue]; omega

theorem range_empty (i : Nat) : i ∈ ([] : List Nat) ↔ inRange 4 (some 3) (some 1) i := by
  simp [inRange, boundValue]; omega

theorem witness_ExpandCommand : (∃ v : Int, 0 ≤ v ∧ v ≤ 255 ∧ v = 0) ∧ (∃ v : Int, 0 ≤ v ∧ v ≤ 255 ∧ v = 255) ∧
    (∃ v : Int, v < 0 ∨ 255 < v) ∧ (∃ v : Int, 255 < v ∧ v = 256) ∧
    (∀ v : Int, Value.seq [.int 1, .int 2, .int 3] ≠ .scalar (.int v)) ∧
    (∀ v : Int, Value.scalar .nonInt ≠ .scalar (.int v)) :=
  ⟨⟨0, by decide⟩, ⟨255, by decide⟩, ⟨-1, by decide⟩, ⟨256, by decide⟩, by simp, by simp⟩

theorem witness_IndexNamesPixel :
    resolve 4 [.idx (.int 0)] = .ok (.single 0) ∧ resolve 4 [.idx (.int 3)] = .ok (.single 3) ∧
    resolve 4 [.idx (.int (-1))] = .ok (.single 3) ∧ resolve 4 [.idx (.int (-4))] = .ok (.single 0) ∧
    resolve 4 [.idx (.int 4)] = .error .outOfRange ∧ resolve 4 [.idx (.int (-5))] = .error .outOfRange ∧
    ((1 : Nat) ≤ 1 ∧ (1 : Nat) ≤ 4 ∧ (4 : Nat) ≤ 4) := by decide

theorem witness_PairNamesCell : (validIndex 4 (-1) ∧ (0 : Int) ≤ 0 ∧ (0 : Int) < 3) ∧
    (validIndex 4 3 ∧ (0 : Int) ≤ 2 ∧ (2 : Int) < 3) ∧ ¬(validIndex 4 1 ∧ (0 : Int) ≤ 3 ∧ (3 : Int) < 3) ∧
    ¬(validIndex 4 4 ∧ (0 : Int) ≤ 0 ∧ (0 : Int) < 3) ∧
    resolve 4 [.idx (.int (-1)), .idx (.int 0)] = .ok (.paired 3 0) := by unfold validIndex; decide

theorem witness_MalformedAddressesRejected : ([] : Addr).length = 0 ∧
    2 < ([.idx (.int 0), .idx (.int 0), .idx (.int 0)] : Addr).length ∧
    (([.idx .nonInt, .rng none none none] : Addr).length = 2 ∧
      ([.idx .nonInt, .rng none none none] : Addr).any Dim.isRange = true) ∧
    (∃ s e t : Option Comp, s = some .nonInt ∧ e = none ∧ t = some (.int 2)) ∧
    (([.rng none none (some (.int 0))] : Addr) = rangeAddr none none (some 0) ∧ (0 : Int) ≠ 1) := by
  refine ⟨rfl, by decide, by decide, ⟨_, _, _, rfl, rfl, rfl⟩, rfl, by decide⟩

theorem witness_AddressClassOutcome : Addr.ak [.idx (.int 9)] = 0 ∧ Addr.ak [.idx (.int 9), .idx (.int 9)] = 1 ∧
    Addr.ak [.rng none none (some (.int 5))] = 2 ∧ Addr.ak [.idx .nonInt] = 3 ∧ Addr.ak [.idx .nonInt, .idx (.int 7)] = 4 ∧
    Addr.ak [.idx .nonInt, .rng none none none] = 5 ∧ Addr.ak [.idx (.int 0), .idx (.int 0), .idx .nonInt] = 6 ∧
    Addr.ak [] = 7 ∧ Addr.ak [.rng none (some .nonInt) none] = 8 := by decide

theorem witness_ResolvedInsideBuffer : resolve 4 [.idx (.int 3)] = .ok (.single 3) ∧
    resolve 4 [.idx (.int 3), .idx (.int 2)] = .ok (.paired 3 2) ∧
    resolve 4 [.rng (some (.int (-9))) (some (.int 9)) none] = .ok (.range 0 4) := by decide

theorem witness_RangeAddressesPixels : normRange 4 (some 1) (some (-1)) = (1, 3) ∧ inRange 4 (some 1) (some (-1)) 1 ∧
    inRange 4 (some 1) (some (-1)) 2 ∧ ¬inRange 4 (some 1) (some (-1)) 3 ∧ normRange 4 (some 3) (some 1) = (3, 3) :=
  ⟨by decide, (range_of_two 1).mp (by decide), (range_of_two 2).mp (by decide),
    fun h => absurd ((range_of_two 3).mpr h) (by decide), by decide⟩

theorem witness_GetPixelReads : validIndex counted.pixelCount (-4) ∧ validIndex counted.pixelCount 3 ∧
    ¬validIndex counted.pixelCount 4 ∧ ¬validIndex counted.pixelCount (-5) := by unfold validIndex; decide

theorem witness_GetChannelReads : (validIndex counted.pixelCount (-4) ∧ (0 : Int) ≤ 2 ∧ (2 : Int) < 3) ∧
    ¬(validIndex counted.pixelCount 0 ∧ (0 : Int) ≤ -1 ∧ (-1 : Int) < 3) := by unfold validIndex; decide

theorem witness_GetRangeReads : stepIsOne none ∧ stepIsOne (some 1) := ⟨.inl rfl, .inr rfl⟩

theorem witness_StepOtherThanOne : ¬stepIsOne (some 2) ∧ ¬stepIsOne (some 0) ∧ ¬stepIsOne (some (-1)) := by
  unfold stepIsOne; decide

theorem witness_SetPixelWrites : validIndex counted.pixelCount (-4) ∧ validIndex counted.pixelCount 3 := by
  unfold validIndex; decide

theorem witness_SetPixelErrors : ¬validIndex counted.pixelCount 4 ∧ validIndex counted.pixelCount 3 ∧
    (∀ xs, Value.scalar (.int 5) ≠ .seq xs) ∧ (∀ xs, Value.seqSeq [[.int 1, .int 2, .int 3]] ≠ .seq xs) ∧
    tripleError [.int 300, .nonInt, .int 0] = some .valueOutOfDomain ∧ tripleError [.int 0, .int 255, .nonInt] = some .typeMismatch ∧
    tripleError [] = some .shapeMismatch :=
  ⟨by unfold validIndex; decide, by unfold validIndex; decide, by simp, by simp, by decide, by decide, by decide⟩

theorem witness_SetChannelWrites : (validIndex counted.pixelCount (-1) ∧ (0 : Int) ≤ 0 ∧ (0 : Int) < 3) ∧
    (validIndex counted.pixelCount 0 ∧ (0 : Int) ≤ 2 ∧ (2 : Int) < 3) := by unfold validIndex; decide

theorem witness_SetChannelErrors : ¬(validIndex counted.pixelCount 0 ∧ (0 : Int) ≤ 3 ∧ (3 : Int) < 3) ∧
    (validIndex counted.pixelCount 0 ∧ (0 : Int) ≤ 2 ∧ (2 : Int) < 3 ∧ ∀ z : Int, Value.seq [.int 7] ≠ .scalar (.int z)) ∧
    (validIndex counted.pixelCount 3 ∧ (0 : Int) ≤ 0 ∧ (0 : Int) < 3 ∧ ((-1 : Int) < 0 ∨ (255 : Int) < -1)) :=
  ⟨by unfold validIndex; decide, ⟨by unfold validIndex; decide, by decide, by decide, by simp⟩,
    by unfold validIndex; decide⟩

theorem witness_SetBroadcastWrites : stepIsOne none ∧ inRange counted.pixelCount (some 1) (some (-1)) 1 ∧
    ∀ i, ¬inRange counted.pixelCount (some 3) (some 1) i :=
  ⟨.inl rfl, (range_of_two 1).mp (by decide), fun i h => absurd ((range_empty i).mpr h) (by simp)⟩

theorem witness_SetListWrites : stepIsOne (some 1) ∧ [1, 2].Pairwise (· < ·) ∧
    (∀ i, i ∈ [1, 2] ↔ inRange counted.pixelCount (some 1) (some (-1)) i) ∧
    [Triple.mk 1 2 3, Triple.mk 4 5 6].length = [1, 2].length := ⟨.inr rfl, by decide, range_of_two, rfl⟩

theorem witness_RangeValueErrors : stepIsOne none ∧ [1, 2].Pairwise (· < ·) ∧
    (∀ i, i ∈ [1, 2] ↔ inRange counted.pixelCount (some 1) (some (-1)) i) ∧
    tripleError [.int 1, .int 2] = some .shapeMismatch ∧ [[Comp.int 1]].length ≠ [1, 2].length ∧
    ([[Comp.int 1, .int 1, .int 256], [.int 2, .nonInt, .int 2]].length = [1, 2].length ∧
      [[Comp.int 1, .int 1, .int 256], [.int 2, .nonInt, .int 2]].findSome? tripleError = some .valueOutOfDomain) :=
  ⟨.inl rfl, by decide, range_of_two, by decide, by decide, rfl, by decide⟩

theorem witness_RangeScalarIsShapeMismatch : stepIsOne none ∧ stepIsOne (some 1) := ⟨.inl rfl, .inr rfl⟩

theorem witness_PixelReadBack : validIndex counted.pixelCount 3 ∧ validIndex counted.pixelCount (-2) ∧
    pixelOf counted.pixelCount (-2) ≠ pixelOf counted.pixelCount 3 := by unfold validIndex; decide

theorem witness_ChannelReadBack : validIndex counted.pixelCount (-4) ∧ (0 : Int) ≤ 2 ∧ (2 : Int) < 3 ∧
    ((0 : Int) ≤ 0 ∧ (0 : Int) < 3 ∧ (0 : Int) ≠ 2) ∧ (11 : Nat) < 12 ∧ (3 : Nat) ≠ pixelOf counted.pixelCount (-4) ∧
    7 / 4 ≠ (2 : Int).toNat := by unfold validIndex; decide

theorem witness_BroadcastReadBack : stepIsOne none ∧ inRange counted.pixelCount none none 3 :=
  ⟨.inl rfl, by simp [inRange, boundValue, counted, State.init]⟩

theorem witness_ListReadBack : stepIsOne none ∧ [Triple.mk 1 2 3, Triple.mk 4 5 6].length =
    (normRange counted.pixelCount (some (-2)) none).2 - (normRange counted.pixelCount (some (-2)) none).1 :=
  ⟨.inl rfl, by decide⟩

theorem witness_RotateMovesEveryByte : 1 ≤ counted.pixelCount ∧ 1 ≤ (State.init 1 .x00).pixelCount := by decide

theorem witness_RotateRejectsNonInteger : (∀ k : Int, Value.scalar .nonInt ≠ .scalar (.int k)) ∧
    (∀ k : Int, Value.seq [.int 1] ≠ .scalar (.int k)) := ⟨by simp, by simp⟩

theorem witness_RotationLaws : counted.Inv ∧ (State.init 1 .x88).Inv ∧ (State.init 1 .x88).pixelCount = 1 ∧
    ∀ i < (State.init 1 .x88).pixelCount, (State.init 1 .x88).holdsTriple i (Triple.mk 0 0 0) :=
  ⟨counted_inv, by unfold State.Inv; decide, rfl, by unfold State.holdsTriple; decide⟩

theorem witness_ThreeStepRotationAgrees : counted.Inv ∧ 12 * rotateCount counted.pixelCount (-1) ≠ 0 :=
  ⟨counted_inv, by decide⟩

theorem witness_WriteCompletes :
    (∃ info rest, { counted with txs := [.answer 0 5] }.txs = .answer 0 info :: rest) ∧
    (∃ info rest, sample.txs = .answer 1 info :: rest) ∧ counted.txs = [] ∧
    (∃ rest, { counted with txs := [.silent] }.txs = .silent :: rest) :=
  ⟨⟨_, _, rfl⟩, ⟨_, _, rfl⟩, rfl, ⟨_, rfl⟩⟩

theorem witness_TransmittedBytesAreBuffer : counted.transportAnswers ∧ sample.transportAnswers := by
  unfold State.transportAnswers; decide

theorem witness_TxOnlyByWrite : (∃ t, step sample = .next t) ∧ (∃ t, step (sent 4 [0x07000000]) = .next t) :=
  ⟨⟨_, rfl⟩, ⟨_, rfl⟩⟩

theorem witness_ErrorsWriteNothing : ∃ t, runMove (.request (.get [])) counted = .next t ∧
    .response (.error .dimensionality) ∈ counted.emitted t := ⟨_, rfl, by decide⟩

theorem witness_OneResponsePerCommand : (∃ t, runMove (.request .write) sample = .next t) ∧
    (∃ t, runMove .reset sample = .next t) ∧ (HostMove.request .write ≠ .reset) := ⟨⟨_, rfl⟩, ⟨_, rfl⟩, by decide⟩

theorem witness_InstanceConstant : ∃ t, step sample = .next t := ⟨_, rfl⟩

theorem witness_ReadersLeaveBuffer : Instr.write.writesBuffer = false ∧ (∃ t, exec .write sample = .next t) ∧
    (Instr.getP 1).writesBuffer = false ∧ (∃ t, exec (.getP 1) sample = .next t) := ⟨rfl, ⟨_, rfl⟩, rfl, ⟨_, rfl⟩⟩

theorem witness_SetIsIdempotent : sample.Inv ∧ (Instr.setRB none none none (Triple.comps ⟨9, 8, 7⟩)).isSet = true :=
  ⟨sample_inv, rfl⟩

theorem witness_StatusesByInstruction : ∃ t, exec (.rotate (.scalar .nonInt)) sample = .next t := ⟨_, rfl⟩

theorem witness_StepRunsDecodedInstruction : 1 ≤ sample.pixelCount ∧ sample.pixelCount ≤ Config.maxPixels ∧
    sample.inputs = .command [0x05000000] :: [] ∧ decode [0x05000000] = .instr .count ∧
    { sample with inputs := [.request .count] }.inputs = .request .count :: [] ∧
    (Config.maxPixels < (State.init 178956971 .x88).pixelCount ∧
      { State.init 178956971 .x88 with inputs := [.command [0x05000000]] }.inputs = .command [0x05000000] :: []) := by
  decide

theorem witness_CountAnswersN : (Instr.getP 0 ≠ .count ∧ ∃ t, exec (.getP 0) counted = .next t) ∧
    (Request.rotate (.scalar (.int 1)) ≠ .count ∧ ∃ t, perform (.rotate (.scalar (.int 1))) counted = .next t) :=
  ⟨⟨by decide, _, rfl⟩, by decide, _, rfl⟩

theorem witness_TransportPorts : sample.transportAnswers ∧ (∃ rest, sample.txs = .answer 1 7 :: rest) ∧
    (∃ rest, (sent 4 []).txs = .answer 0 0 :: rest) := ⟨by unfold State.transportAnswers; decide, ⟨_, rfl⟩, _, rfl⟩

theorem witness_IllegalHeaderAnswered : 1 ≤ sample.pixelCount ∧ sample.pixelCount ≤ Config.maxPixels ∧
    decodeHeader 0x03900000 = none ∧ { sample with inputs := [.command [0x03900000]] }.inputs = [.command [0x03900000]] ∧
    [0x05000000, 0].length ≠ commandLength [0x05000000, 0] ∧ ([] : List Word).length ≠ commandLength [] := by decide

theorem witness_DecodeOfEncode : (Instr.setRL (some (-2147483648)) none (some 2147483647) [[.int 1], []]).wf = true := by
  decide

theorem witness_EncodeOfDecode : decode [0x042D0000, 0, 2, 1, 3, 1, 1, 1] =
    .instr (.setRL (some 0) (some 2) none [[.int 1, .int 1, .int 1]]) := by decide

theorem witness_StepKeepsGoodState : sample.Inv ∧ ∃ t, step sample = .next t := ⟨sample_inv, _, rfl⟩

theorem witness_ResetContents : 1 ≤ counted.pixelCount ∧ { counted with inputs := [.reset] }.inputs = .reset :: [] := by
  decide

theorem witness_ResetIsGood : 1 ≤ 1 ∧ (State.init 1 .x00).Inv := ⟨by decide, by unfold State.Inv; decide⟩

theorem witness_IdleAndNoInstance : (1 ≤ counted.pixelCount ∧ counted.inputs = []) ∧ (0 : Int) ≤ 0 ∧ (0 : Int) < 1 ∧
    (State.init 0 .x88).pixelCount = 0 := by decide

theorem witness_EveryCommandCompletes : 1 ≤ sample.pixelCount ∧ sample.inputs = .command [0x05000000] :: [] ∧
    (HostMove.command [0x05000000]).legal sample.pixelCount = true ∧
    ((sent 4 [0x07000000]).inputs = .command [0x07000000] :: [] ∧ (HostMove.command [0x07000000]).isWrite = true ∧
      (sent 4 [0x07000000]).transportAnswers) := by unfold State.transportAnswers; decide

theorem witness_Indistinguishable : { counted with inputs := [.reset] }.pixelCount = counted.pixelCount ∧
    (∀ a < counted.length, { counted with inputs := [.reset] }.byteAt a = counted.byteAt a) ∧
    ∃ t, performAll [.count, .rotate (.scalar (.int 1))] counted = .next t := ⟨rfl, fun _ _ => rfl, _, rfl⟩

theorem witness_NeverOutsideBuffer : sample.Inv ∧ ∃ t, step sample = .next t := ⟨sample_inv, _, rfl⟩

theorem witness_ResponseWordsExact : counted.pixelCount ≤ Config.maxPixels ∧ (∃ t, exec (.getP 0) counted = .next t ∧
    .response (.ok (.values [1, 1, 1])) ∈ counted.emitted t) ∧ ∀ info, ErrorKind.outOfRange ≠ .transportFailure info :=
  ⟨by decide, ⟨_, rfl, by decide⟩, by simp⟩

theorem witness_ResponseWordsExact_counts : (178956970 : Nat) ≤ Config.maxPixels ∧ (0 : Nat) ≤ Config.maxPixels := by decide

end Sys2Proof.Tests
end

section
/-! PROOFS. The codec's statements (40_codec.md R100 to R108), by way of single bits: the bits of a table byte, of
`compress` and of `expand`, each said once. -/

namespace Sys2Proof.Machine

/-! ## The table byte -/

/-- The nibble that carries one bit of a pair (R103). -/
def nibbleOf (b : Bool) : BitVec 4 := if b then 0b1100#4 else 0b1000#4

/-- R103, read off the four entries of the table: the high nibble carries the pair's high bit, the low nibble its low
bit. -/
theorem tableByte_eq_append (p : BitVec 2) : tableByte p = nibbleOf (p.getLsbD 1) ++ nibbleOf (p.getLsbD 0) := by
  revert p; decide

theorem nibbleOf_append_bits (h l : Bool) :
    (List.range 8).map (fun k => (nibbleOf h ++ nibbleOf l).getLsbD (7 - k)) =
      [true, h, false, false, true, l, false, false] := by
  revert h l; decide

theorem nibbleOf_append_eq_or (h l : Bool) :
    nibbleOf h ++ nibbleOf l = (0x88 : Byte) ||| ((BitVec.ofBool h).setWidth 8 <<< 6) |||
      ((BitVec.ofBool l).setWidth 8 <<< 2) := by
  revert h l; decide

/-- R104 (b): each of the four entries, read at bit 6, gives back its index's high bit. -/
theorem tableByte_getLsbD_six (p : BitVec 2) : (tableByte p).getLsbD 6 = p.getLsbD 1 := by
  revert p; decide

/-- R104 (b): each of the four entries, read at bit 2, gives back its index's low bit. -/
theorem tableByte_getLsbD_two (p : BitVec 2) : (tableByte p).getLsbD 2 = p.getLsbD 0 := by
  revert p; decide

/-! ## The bits of `expand` and `compress` -/

/-- R101: byte `k` is the table byte of the pair at bits `7-2k` and `6-2k`. -/
theorem expand_bytes_getD (v : Byte) {k : Nat} (hk : k < 4) :
    (expand v).bytes.getD k 0 = tableByte (v.extractLsb' (6 - 2 * k) 2) := by
  interval_cases k <;> rfl

theorem expand_byte_getLsbD_six (v : Byte) {k : Nat} (hk : k < 4) :
    ((expand v).bytes.getD k 0).getLsbD 6 = v.getLsbD (7 - 2 * k) := by
  have hpos : 6 - 2 * k + 1 = 7 - 2 * k := by omega
  rw [expand_bytes_getD v hk, tableByte_getLsbD_six, BitVec.getLsbD_extractLsb', hpos]
  rfl

theorem expand_byte_getLsbD_two (v : Byte) {k : Nat} (hk : k < 4) :
    ((expand v).bytes.getD k 0).getLsbD 2 = v.getLsbD (6 - 2 * k) := by
  rw [expand_bytes_getD v hk, tableByte_getLsbD_two, BitVec.getLsbD_extractLsb']
  rfl

/-- R105: bit 6 of byte `k` goes to position `7-2k`, whatever the group. -/
theorem compress_getLsbD_high (g : Group) {k : Nat} (hk : k < 4) :
    (compress g).getLsbD (7 - 2 * k) = (g.bytes.getD k 0).getLsbD 6 := by
  simp only [compress, bitAt, Group.bytes, BitVec.getLsbD_append]
  interval_cases k <;> simp

/-- R105: bit 2 of byte `k` goes to position `6-2k`, whatever the group. -/
theorem compress_getLsbD_low (g : Group) {k : Nat} (hk : k < 4) :
    (compress g).getLsbD (6 - 2 * k) = (g.bytes.getD k 0).getLsbD 2 := by
  simp only [compress, bitAt, Group.bytes, BitVec.getLsbD_append]
  interval_cases k <;> simp

/-- Two bytes are equal when they agree at the two positions of each of the four pairs. -/
theorem byte_eq_of_pairs {a b : Byte} (hhigh : ∀ k < 4, a.getLsbD (7 - 2 * k) = b.getLsbD (7 - 2 * k))
    (hlow : ∀ k < 4, a.getLsbD (6 - 2 * k) = b.getLsbD (6 - 2 * k)) : a = b := by
  refine BitVec.eq_of_getLsbD_eq fun i hi => ?_
  rcases Nat.even_or_odd' i with ⟨j, rfl | rfl⟩
  · have hpos : 2 * j = 6 - 2 * (3 - j) := by omega
    rw [hpos]
    exact hlow (3 - j) (by omega)
  · have hpos : 2 * j + 1 = 7 - 2 * (3 - j) := by omega
    rw [hpos]
    exact hhigh (3 - j) (by omega)

/-- R106: `compress` puts the bits that `expand` spread back at their own positions. -/
@[simp] theorem compress_expand (v : Byte) : compress (expand v) = v := by
  refine byte_eq_of_pairs (fun k hk => ?_) (fun k hk => ?_)
  · rw [compress_getLsbD_high _ hk, expand_byte_getLsbD_six v hk]
  · rw [compress_getLsbD_low _ hk, expand_byte_getLsbD_two v hk]

/-! ## The obligations -/

/-- Settles O1, bit by bit: `expand` spreads each pair over one byte and `compress` collects it. -/
theorem compressUndoesExpand : Obligations.CompressUndoesExpand := by
  intro v
  exact ⟨compress_expand v, fun k hk => ⟨expand_byte_getLsbD_six v hk, expand_byte_getLsbD_two v hk⟩⟩

/-- Settles O2: a table byte is two nibbles, each of which carries one bit of the pair. -/
theorem tableByteStructure : Obligations.TableByteStructure := by
  intro p
  rw [tableByte_eq_append]
  exact ⟨nibbleOf_append_bits _ _, nibbleOf_append_eq_or _ _,
    BitVec.extractLsb'_append_eq_left, BitVec.extractLsb'_append_eq_right⟩

end Sys2Proof.Machine
end

section
/-! PROOFS. What a single index and a (pixel, channel) pair resolve to (41_index_resolver.md R121 to R125). -/

namespace Sys2Proof.Machine

/-! ## The pixel an index names -/

theorem pixelOf_of_nonneg {n : Nat} {p : Int} (h : 0 ≤ p) : pixelOf n p = p.toNat := by
  rw [pixelOf, if_neg (by omega)]

theorem pixelOf_of_neg {n : Nat} {p : Int} (h : p < 0) : pixelOf n p = (p + n).toNat := by
  rw [pixelOf, if_pos h]

/-- R121: `-j` and `N - j` name one pixel, since `N` is added to the first only. -/
theorem pixelOf_neg_eq_sub {n j : Nat} (h1 : 1 ≤ j) (hn : j ≤ n) :
    pixelOf n (-(j : Int)) = pixelOf n ((n : Int) - j) := by
  have hsum : -(j : Int) + n = (n : Int) - j := by omega
  rw [pixelOf_of_neg (by omega), pixelOf_of_nonneg (by omega), hsum]

/-! ## `resolve` on one index and on a pair -/

theorem resolve_index_valid {n : Nat} {p : Int} (h : validIndex n p) :
    resolve n [.idx (.int p)] = .ok (.single (pixelOf n p)) := by
  rw [resolve, resolveOne, normIndex_valid h]; rfl

theorem resolve_index_invalid {n : Nat} {p : Int} (h : ¬validIndex n p) :
    resolve n [.idx (.int p)] = .error .outOfRange := by
  rw [resolve, resolveOne, normIndex_invalid h]; rfl

theorem resolve_pair_valid {n : Nat} {p c : Int} (hp : validIndex n p) (hc : 0 ≤ c ∧ c < 3) :
    resolve n [.idx (.int p), .idx (.int c)] = .ok (.paired (pixelOf n p) c.toNat) := by
  rw [resolve, resolveTwo, resolvePair_valid hp hc]; rfl

theorem resolve_pair_invalid {n : Nat} {p c : Int} (h : ¬(validIndex n p ∧ 0 ≤ c ∧ c < 3)) :
    resolve n [.idx (.int p), .idx (.int c)] = .error .outOfRange := by
  rw [resolve, resolveTwo, resolvePair_invalid h]; rfl

/-- R125: a NonInt pixel is a type error, whatever component stands beside it. -/
theorem resolve_pair_nonInt_left (n : Nat) (d : Comp) :
    resolve n [.idx .nonInt, .idx d] = .error .typeMismatch := rfl

/-- R125: a NonInt channel is a type error before the pixel's bound is looked at. -/
theorem resolve_pair_nonInt_right (n : Nat) (d : Comp) :
    resolve n [.idx d, .idx .nonInt] = .error .typeMismatch := by
  cases d <;> rfl

/-! ## The obligations -/

/-- Settles O6: every clause but the type error asks whether the index is valid and which pixel it names. -/
theorem indexNamesPixel : Obligations.IndexNamesPixel := by
  intro n p
  refine ⟨fun h0 hn => ?nonneg, fun hn h0 => ?negative, fun h => ?outside, rfl, fun j h1 hn => ?fromEnd⟩
  case nonneg =>
    have hvalid : validIndex n p := ⟨by omega, hn⟩
    rw [resolve_index_valid hvalid, pixelOf_of_nonneg h0]
  case negative =>
    have hvalid : validIndex n p := ⟨hn, by omega⟩
    rw [resolve_index_valid hvalid, pixelOf_of_neg h0]
  case outside =>
    exact resolve_index_invalid fun ⟨hlow, hhigh⟩ => by omega
  case fromEnd =>
    have hneg : validIndex n (-(j : Int)) := ⟨by omega, by omega⟩
    have hsub : validIndex n ((n : Int) - j) := ⟨by omega, by omega⟩
    rw [resolve_index_valid hneg, resolve_index_valid hsub, pixelOf_neg_eq_sub h1 hn]

/-- Settles O7: the two bounds are judged together, the type of each component before them. -/
theorem pairNamesCell : Obligations.PairNamesCell := by
  intro n p c
  exact ⟨fun hp h0 h3 => resolve_pair_valid hp ⟨h0, h3⟩, resolve_pair_invalid,
    fun d => ⟨resolve_pair_nonInt_left n d, resolve_pair_nonInt_right n d⟩⟩

end Sys2Proof.Machine
end

section
/-! PROOFS. An instruction does what the level-1 request it denotes does (30_encoding.md R81), so that what holds of the
seven kinds of request holds of the 26 instructions. -/

namespace Sys2Proof.Machine

/-! ## Address resolution in its binary and its level-1 form -/

@[simp] theorem intBound_boundComp (b : Option Int) : intBound (boundComp b) = .ok b := by
  cases b <;> rfl

/-- The bounds of a binary range are integers, so the type error of R126 cannot occur and only the step can be wrong. -/
theorem resolve_rangeAddr (n : Nat) (start stop step : Option Int) :
    resolve n (rangeAddr start stop step) =
      (resolveRange n start stop step).map fun ab => .range ab.1 ab.2 := by
  rw [rangeAddr, resolve, resolveOne]
  simp only [intBound_boundComp]
  change (resolveRange n start stop step >>= fun ab => .ok (Resolved.range ab.1 ab.2)) = _
  cases resolveRange n start stop step <;> rfl

theorem resolve_index (n : Nat) (p : Int) : resolve n [.idx (.int p)] = (normIndex n p).map .single := by
  rw [resolve, resolveOne]
  cases normIndex n p <;> rfl

theorem resolve_pair (n : Nat) (p c : Int) :
    resolve n [.idx (.int p), .idx (.int c)] = (resolvePair n p c).map fun ic => .paired ic.1 ic.2 := by
  rw [resolve, resolveTwo]
  cases resolvePair n p c <;> rfl

theorem andThen_map {α β : Type} (s : State) (x : Except ErrorKind α) (g : α → β) (f : β → Out) :
    andThen s (x.map g) f = andThen s x fun v => f (g v) := by
  cases x <;> rfl

section AtAnAddress
variable (s : State) (f : Resolved → Out)

theorem andThen_resolve_index (p : Int) :
    andThen s (resolve s.pixelCount [.idx (.int p)]) f =
      andThen s (normIndex s.pixelCount p) fun i => f (.single i) := by
  rw [resolve_index, andThen_map]

theorem andThen_resolve_pair (p c : Int) :
    andThen s (resolve s.pixelCount [.idx (.int p), .idx (.int c)]) f =
      andThen s (resolvePair s.pixelCount p c) fun ic => f (.paired ic.1 ic.2) := by
  rw [resolve_pair, andThen_map]

theorem andThen_resolve_rangeAddr (start stop step : Option Int) :
    andThen s (resolve s.pixelCount (rangeAddr start stop step)) f =
      andThen s (resolveRange s.pixelCount start stop step) fun ab => f (.range ab.1 ab.2) := by
  rw [resolve_rangeAddr, andThen_map]

end AtAnAddress

/-! ## The instruction and its request -/

/-- R81: the address forms resolve as their request's address does, the address-error forms to the error of R81's
canonical member; the rest have no address. -/
theorem exec_eq_perform_request (i : Instr) (s : State) : exec i s = perform i.request s := by
  cases i with
  | getP p => exact (andThen_resolve_index s (getResolved · s) p).symm
  | setP p v => exact (andThen_resolve_index s (setResolved · v s) p).symm
  | getC p c => exact (andThen_resolve_pair s (getResolved · s) p c).symm
  | setC p c v => exact (andThen_resolve_pair s (setResolved · v s) p c).symm
  | getR start stop step => exact (andThen_resolve_rangeAddr s (getResolved · s) start stop step).symm
  | setRB start stop step xs =>
    exact (andThen_resolve_rangeAddr s (setResolved · (.seq xs) s) start stop step).symm
  | setRL start stop step es =>
    exact (andThen_resolve_rangeAddr s (setResolved · (.seqSeq es) s) start stop step).symm
  | setRX0 start stop step v =>
    exact (andThen_resolve_rangeAddr s (setResolved · (.scalar (.int v)) s) start stop step).symm
  | setRX3 start stop step =>
    exact (andThen_resolve_rangeAddr s (setResolved · (.scalar .nonInt) s) start stop step).symm
  | expand | compress | getA3 | getA4 | getA5 | getA6 | getA7 | getA8 | setA3 | setA4 | setA5 | setA6 | setA7 | setA8
  | count | rotate | write => rfl

theorem request_eq_count_iff {i : Instr} : i.request = .count ↔ i = .count := by
  cases i <;> simp [Instr.request]

end Sys2Proof.Machine
end

section
/-! PROOFS. COUNT (42_pixel_buffer.md R156): no other command's answer is a pixel count, and a command emits no response but
its answer. -/

namespace Sys2Proof.Machine

/-! ## Which commands answer with a pixel count -/

/-- The command ends successfully with a pixel count. -/
def AnswersCount (o : Out) : Prop := ∃ (t : State) (n : Nat), o = respond (.count n) t

theorem State.emit_event_injective {s t : State} {e e' : Event} (h : s.emit e = t.emit e') : e = e' := by
  have htrace : s.trace ++ [e] = t.trace ++ [e'] := congrArg State.trace h
  exact List.singleton_inj.mp (List.append_inj_right' htrace rfl)

/-- Only the last event matters: `s` may be any state. -/
theorem answersCount_respond {d : Payload} {s : State} : AnswersCount (respond d s) → ∃ n, d = .count n := by
  rintro ⟨t, n, h⟩
  have hevent : Event.response (.ok d) = .response (.ok (.count n)) :=
    State.emit_event_injective (Host.Outcome.next.inj h)
  cases hevent
  exact ⟨n, rfl⟩

theorem not_answersCount_raise (e : ErrorKind) (s : State) : ¬AnswersCount (raise e s) := by
  rintro ⟨t, n, h⟩
  have hevent : Event.response (.error e) = .response (.ok (.count n)) :=
    State.emit_event_injective (Host.Outcome.next.inj h)
  cases hevent

theorem not_answersCount_respond_empty (s : State) : ¬AnswersCount (respond .empty s) := by
  intro h
  obtain ⟨_, ⟨⟩⟩ := answersCount_respond h

theorem not_answersCount_finish (x : Except Fault State) : ¬AnswersCount (finish x) := by
  cases x with
  | ok t => exact not_answersCount_respond_empty t
  | error f => rintro ⟨t, n, ⟨⟩⟩

theorem not_answersCount_answerValues (s : State) (x : Except Fault (List Byte)) :
    ¬AnswersCount (answerValues s x) := by
  cases x with
  | ok vs => intro h; obtain ⟨_, ⟨⟩⟩ := answersCount_respond h
  | error f => rintro ⟨t, n, ⟨⟩⟩

theorem not_answersCount_andThen {α : Type} {s : State} {x : Except ErrorKind α} {f : α → Out}
    (hf : ∀ v, ¬AnswersCount (f v)) : ¬AnswersCount (andThen s x f) := by
  cases x with
  | ok v => exact hf v
  | error e => exact not_answersCount_raise e s

/-- A GET answers with channel values. -/
theorem not_answersCount_getResolved (r : Resolved) (s : State) : ¬AnswersCount (getResolved r s) := by
  cases r <;> exact not_answersCount_answerValues s _

theorem not_answersCount_setSingle (i : Nat) (v : Value) (s : State) : ¬AnswersCount (setSingle i v s) := by
  cases v with
  | seq xs => exact not_answersCount_andThen fun _ => not_answersCount_finish _
  | scalar c => exact not_answersCount_raise _ s
  | seqSeq es => exact not_answersCount_raise _ s

theorem not_answersCount_setBroadcast (a b : Nat) (xs : List Comp) (s : State) :
    ¬AnswersCount (setBroadcast a b xs s) := by
  refine not_answersCount_andThen fun t => ?_
  split
  · exact not_answersCount_respond_empty s
  · exact not_answersCount_finish _

theorem not_answersCount_setList (a b : Nat) (es : List (List Comp)) (s : State) :
    ¬AnswersCount (setList a b es s) := by
  unfold setList
  split
  · exact not_answersCount_raise _ s
  · exact not_answersCount_andThen fun _ => not_answersCount_finish _

/-- A SET answers with no data. -/
theorem not_answersCount_setResolved (r : Resolved) (v : Value) (s : State) :
    ¬AnswersCount (setResolved r v s) := by
  cases r with
  | single i => exact not_answersCount_setSingle i v s
  | paired i c => exact not_answersCount_andThen fun _ => not_answersCount_finish _
  | range a b =>
    cases v with
    | seq xs => exact not_answersCount_setBroadcast a b xs s
    | seqSeq es => exact not_answersCount_setList a b es s
    | scalar c => exact not_answersCount_raise _ s

theorem not_answersCount_perform {r : Request} (hcount : r ≠ .count) (hwrite : r ≠ .write) (s : State) :
    ¬AnswersCount (perform r s) := by
  cases r with
  | expand x =>
    refine not_answersCount_andThen fun v h => ?_
    obtain ⟨_, ⟨⟩⟩ := answersCount_respond h
  | compress b0 b1 b2 b3 => intro h; obtain ⟨_, ⟨⟩⟩ := answersCount_respond h
  | get addr => exact not_answersCount_andThen fun r => not_answersCount_getResolved r s
  | set addr v => exact not_answersCount_andThen fun r => not_answersCount_setResolved r v s
  | count => exact absurd rfl hcount
  | rotate v => exact not_answersCount_andThen fun _ => not_answersCount_respond_empty _
  | write => exact absurd rfl hwrite

/-! ## What a step emitted -/

theorem State.emitted_of_trace {s t : State} {l : List Event} (h : t.trace = s.trace ++ l) : s.emitted t = l := by
  rw [State.emitted, h, List.drop_left]

theorem State.Wrote.trace {s t : State} {lo hi : Nat} (h : s.Wrote t lo hi) : t.trace = s.trace := by
  rw [h.frame]

/-- A command that ends in one of the ways of `Ends` emits its one response, so a count among what it emitted is its
answer. -/
theorem Ends.answersCount {s t : State} {o : Out} {n : Nat} (h : Ends s o) (ho : o = .next t)
    (hmem : .response (.ok (.count n)) ∈ s.emitted t) : AnswersCount o := by
  cases h with
  | reads d =>
    cases ho
    rw [State.emitted_of_trace (State.emit_trace s _), List.mem_singleton] at hmem
    cases hmem
    exact ⟨s, n, rfl⟩
  | fails e _ =>
    cases ho
    rw [State.emitted_of_trace (State.emit_trace s _), List.mem_singleton] at hmem
    cases hmem
  | writes u hu =>
    cases ho
    rw [State.emitted_of_trace (by rw [State.emit_trace, hu.trace]), List.mem_singleton] at hmem
    cases hmem

/-- WRITE emits a Tx and the transport's answer (44_transport.md R185), which is never a count. -/
theorem execWrite_emits_no_count {s t : State} (h : execWrite s = .next t) (n : Nat) :
    .response (.ok (.count n)) ∉ s.emitted t := by
  obtain ⟨a, txs, draws, hnext⟩ | ⟨hfault, -⟩ := execWrite_cases s
  · cases hnext.symm.trans h
    have hemitted : s.emitted (s.transmitted a txs draws) =
        [.tx (s.bytes 0 s.length), .response (answerResponse a)] := State.emitted_of_trace rfl
    rw [hemitted]
    cases a <;> simp [answerResponse]
  · cases hfault.symm.trans h

theorem perform_emits_no_count {r : Request} {s t : State} (hr : r ≠ .count) (h : perform r s = .next t) (n : Nat) :
    .response (.ok (.count n)) ∉ s.emitted t := by
  by_cases hwrite : r = .write
  · subst hwrite
    exact execWrite_emits_no_count h n
  · exact fun hmem => not_answersCount_perform hr hwrite s ((perform_ends r s hwrite).answersCount h hmem)

/-! ## The obligation -/

/-- Settles O29: COUNT answers by definition; every other command is a request other than COUNT, which emits no count. -/
theorem countAnswersN : Obligations.CountAnswersN := by
  refine ⟨fun s => ⟨rfl, rfl⟩, fun i s t n hi h => ?_, fun r s t n hr h => perform_emits_no_count hr h n⟩
  rw [exec_eq_perform_request] at h
  exact perform_emits_no_count (mt request_eq_count_iff.mp hi) h n

end Sys2Proof.Machine
end

section
/-! PROOFS. ROTATE with an integer count (43_rotator.md R170, R171): `State.rotated_spec` says where each byte goes; what
follows reads that backwards, byte by byte, and by slots and cells. -/

namespace Sys2Proof.Machine

/-! ## The arithmetic of places -/

theorem natCast_rotateCount {n : Nat} (h : 1 ≤ n) (k : Int) : (rotateCount n k : Int) = k % n :=
  Int.toNat_of_nonneg (Int.emod_nonneg k (by omega))

/-- A pixel's place after ROTATE, with the count as it is and with its floored remainder. -/
theorem toNat_add_emod_eq_rotateCount {n : Nat} (h : 1 ≤ n) (i : Nat) (k : Int) :
    (((i : Int) + k) % n).toNat = (i + rotateCount n k) % n := by
  have hcast : ((i : Int) + k) % n = ((i + rotateCount n k) % n : Nat) := by
    push_cast
    rw [natCast_rotateCount h, Int.add_emod_emod]
  rw [hcast, Int.toNat_natCast]

/-- A move of whole slots moves the pixel and keeps the offset inside its slot. -/
theorem slot_place (n i r : Nat) {j : Nat} (hj : j < 12) :
    (12 * i + j + 12 * r) % (12 * n) = 12 * ((i + r) % n) + j := by
  have hinside : (12 * i + j + 12 * r) % 12 = j := by omega
  have hpixel : (12 * i + j + 12 * r) / 12 = i + r := by omega
  rw [Nat.mod_mul, hinside, hpixel, Nat.add_comm]

/-- The byte that moves to place `q` under a rotation by `c` comes from `(q - c) mod len`. -/
theorem rotate_source {len q : Nat} (c : Nat) (hq : q < len) :
    (((q : Int) - c) % len).toNat < len ∧ ((((q : Int) - c) % len).toNat + c) % len = q := by
  have hnonneg : 0 ≤ ((q : Int) - c) % len := Int.emod_nonneg _ (by omega)
  have hlt : ((q : Int) - c) % len < len := Int.emod_lt_of_pos _ (by omega)
  refine ⟨by omega, ?_⟩
  zify
  rw [Int.toNat_of_nonneg hnonneg, Int.emod_add_emod, Int.sub_add_cancel]
  exact Int.emod_eq_of_lt (by omega) (by omega)

/-! ## The rotated buffer, read backwards, by slots and by cells -/

section Rotated
variable (s : State) (k : Int)

theorem State.rotated_byteAt {q : Nat} (hq : q < s.length) :
    (s.rotated k).byteAt q =
      s.byteAt (((q : Int) - (12 * rotateCount s.pixelCount k : Nat)) % s.length).toNat := by
  obtain ⟨hsource, hplace⟩ := rotate_source (12 * rotateCount s.pixelCount k) hq
  have hmoved := (s.rotated_spec k).2 _ hsource
  rwa [hplace] at hmoved

theorem State.rotated_slot_byteAt {i j : Nat} (hi : i < s.pixelCount) (hj : j < 12) :
    (s.rotated k).byteAt (12 * (((i : Int) + k) % s.pixelCount).toNat + j) = s.byteAt (12 * i + j) := by
  have hinside : 12 * i + j < s.length := by rw [State.length]; omega
  rw [toNat_add_emod_eq_rotateCount (by omega), ← slot_place _ _ _ hj]
  exact (s.rotated_spec k).2 _ hinside

theorem State.rotated_cell {i ch : Nat} (hi : i < s.pixelCount) (hch : ch < 3) :
    (s.rotated k).cell (((i : Int) + k) % s.pixelCount).toNat ch = s.cell i ch := by
  have hbyte (m : Nat) (hm : m < 4) := s.rotated_slot_byteAt k hi (show 4 * ch + m < 12 by omega)
  simp only [← Nat.add_assoc] at hbyte
  simp only [State.cell, State.groupAt, goff]
  rw [hbyte 1 (by decide), hbyte 2 (by decide), hbyte 3 (by decide)]
  exact congrArg (fun b => compress ⟨b, _, _, _⟩) (hbyte 0 (by decide))

end Rotated

/-! ## The instruction -/

theorem exec_rotate_int (k : Int) (s : State) :
    exec (.rotate (.scalar (.int k))) s = .next ((s.rotated k).emit (.response (.ok .empty))) := rfl

/-- A command that has written inside BUF and then responds has changed nothing but BUF and the trace. -/
theorem State.Wrote.writesOnly_emit {s t : State} {lo hi : Nat} (h : s.Wrote t lo hi) (r : Response) :
    s.writesOnly (t.emit (.response r)) r := by
  rw [State.writesOnly, h.frame]
  rfl

/-- Settles O30: the places of `State.rotated_spec` with `c = 12 * (k mod N)`, its inverse, and its form in slots and
cells. -/
theorem rotateMovesEveryByte : Obligations.RotateMovesEveryByte := by
  intro k s hn
  obtain ⟨hwrote, hplaces⟩ := s.rotated_spec k
  refine ⟨(s.rotated k).emit (.response (.ok .empty)), 12 * rotateCount s.pixelCount k, exec_rotate_int k s,
    hwrote.writesOnly_emit _, ?count, hplaces, fun q hq => s.rotated_byteAt k hq,
    fun i hi j hj => s.rotated_slot_byteAt k hi hj, fun i hi ch hch => s.rotated_cell k hi hch,
    fun a ha => hwrote.outside a (.inr ha)⟩
  case count =>
    rw [Nat.cast_mul, natCast_rotateCount hn]
    rfl

end Sys2Proof.Machine
end

section
/-! PROOFS. What a WRITE hands over (44_transport.md R182): `State.bytes` read by single offsets and by spans. -/

namespace Sys2Proof.Machine

/-! ## A span of BUF by offsets, groups and smaller spans -/

theorem State.bytes_getElem? (s : State) (a : Nat) {n k : Nat} (h : k < n) :
    (s.bytes a n)[k]? = some (s.byteAt (a + k)) := by
  have hk : k < (s.bytes a n).length := by rwa [State.bytes_length]
  rw [List.getElem?_eq_getElem hk, State.bytes_getElem]

theorem State.groupAt_bytes (s : State) (a : Nat) : (s.groupAt a).bytes = s.bytes a 4 := rfl

/-- Part of a span is the span of that part. -/
theorem State.take_drop_bytes (s : State) (a : Nat) {n d m : Nat} (h : d + m ≤ n) :
    ((s.bytes a n).drop d).take m = s.bytes (a + d) m := by
  refine List.ext_getElem ?length fun k hleft hright => ?byte
  case length =>
    simp only [List.length_take, List.length_drop, State.bytes_length]
    omega
  case byte =>
    rw [List.getElem_take, List.getElem_drop, State.bytes_getElem, State.bytes_getElem, Nat.add_assoc]

/-! ## WRITE with a transport that answers -/

theorem execWrite_of_transportAnswers {s : State} (h : s.transportAnswers) :
    ∃ (a : TransportAnswer) (txs : List TxsInput) (draws : Nat), execWrite s = .next (s.transmitted a txs draws) :=
  (execWrite_cases s).resolve_right fun hsilent => hsilent.2 h

/-- Settles O35: WRITE hands over the span of BUF from offset 0, which is read byte by byte and group by group. -/
theorem transmittedBytesAreBuffer : Obligations.TransmittedBytesAreBuffer := by
  intro s hanswers
  obtain ⟨a, txs, draws, hnext⟩ := execWrite_of_transportAnswers hanswers
  refine ⟨s.transmitted a txs draws, s.bytes 0 s.length, answerResponse a, hnext, rfl, s.bytes_length 0 _,
    fun k hk => ?byte, fun i hi c hc => ?group⟩
  case byte =>
    rw [s.bytes_getElem? 0 (show k < s.length from hk), Nat.zero_add]
  case group =>
    have hinside : 12 * i + 4 * c + 4 ≤ s.length := goff_bound hi hc
    rw [s.take_drop_bytes 0 hinside, Nat.zero_add, State.groupAt_bytes]

end Sys2Proof.Machine
end

section
/-! PROOFS. Who transmits (44_transport.md R183): what a move emits, by whether it is a WRITE, and from it what a step
emits. -/

namespace Sys2Proof.Machine

/-! ## What a move emits -/

/-- A command other than WRITE emits its one response. -/
theorem Ends.emitted {s t : State} {o : Out} (h : Ends s o) (ho : o = .next t) :
    ∃ r, s.emitted t = [.response r] := by
  cases h with
  | reads d => cases ho; exact ⟨_, State.emitted_of_trace (State.emit_trace s _)⟩
  | fails e _ => cases ho; exact ⟨_, State.emitted_of_trace (State.emit_trace s _)⟩
  | writes u hu => cases ho; exact ⟨_, State.emitted_of_trace (by rw [State.emit_trace, hu.trace])⟩

theorem runMove_emitted_of_isWrite {m : HostMove} {s t : State} (hm : m.isWrite = true) (h : runMove m s = .next t) :
    ∃ r, s.emitted t = [.tx (s.bytes 0 s.length), .response r] := by
  have hends := runMove_ends m s
  rw [h] at hends
  cases hends with
  | command _ hnot _ _ => rw [hm] at hnot; cases hnot
  | transmits a txs draws _ => exact ⟨answerResponse a, State.emitted_of_trace rfl⟩
  | refills hreset => subst hreset; cases hm

/-- R183: every other command emits its response alone, and RST nothing. -/
theorem runMove_emits_no_tx {m : HostMove} {s t : State} (hm : m.isWrite = false) (h : runMove m s = .next t) :
    ∀ e ∈ s.emitted t, e.isTx = false := by
  have hends := runMove_ends m s
  rw [h] at hends
  cases hends with
  | command _ _ _ hcommand =>
    obtain ⟨r, hemitted⟩ := hcommand.emitted rfl
    rw [hemitted]
    simp [Event.isTx]
  | transmits a txs draws hwrite => rw [hm] at hwrite; cases hwrite
  | refills _ =>
    have hemitted : s.emitted s.refill = [] := State.emitted_of_trace (List.append_nil _).symm
    rw [hemitted]
    simp

/-! ## What a step does -/

/-- A step that answers a next state holds it with no move pending, and else serves the oldest move. -/
theorem step_cases {s t : State} (h : step s = .next t) :
    (s.inputs = [] ∧ t = s) ∨
      ∃ m rest, s.inputs = m :: rest ∧ runMove m { s with inputs := rest } = .next t := by
  rw [step, serve] at h
  split at h
  · cases h
  · split at h
    next hidle => cases h; exact .inl ⟨hidle, rfl⟩
    next m rest hmove => exact .inr ⟨m, rest, hmove, h⟩

/-! ## The obligation -/

theorem no_tx_of_isTx_false {l : List Event} (h : ∀ e ∈ l, e.isTx = false) :
    l.countP Event.isTx = 0 ∧ ∀ bytes, .tx bytes ∉ l :=
  ⟨List.countP_eq_zero.mpr fun e he => by simp [h e he], fun bytes hmem => by cases h _ hmem⟩

/-- Settles O36: a step with no move pending emits nothing; else its emission is that of the oldest move, which is a WRITE
or not. -/
theorem txOnlyByWrite : Obligations.TxOnlyByWrite := by
  intro s t h
  obtain ⟨hidle, rfl⟩ | ⟨m, rest, hinputs, hmove⟩ := step_cases h
  · have hemitted : t.emitted t = [] := State.emitted_of_trace (List.append_nil _).symm
    simp [hidle, hemitted]
  · cases hm : m.isWrite with
    | true =>
      obtain ⟨r, hemitted⟩ : ∃ r, s.emitted t = [.tx (s.bytes 0 s.length), .response r] :=
        runMove_emitted_of_isWrite (s := { s with inputs := rest }) hm hmove
      simp [hinputs, hm, hemitted, List.countP_cons, Event.isTx]
    | false =>
      obtain ⟨hcount, hnone⟩ := no_tx_of_isTx_false (l := s.emitted t)
        (runMove_emits_no_tx (s := { s with inputs := rest }) hm hmove)
      exact ⟨by simp [hinputs, hm, hcount], fun bytes hmem => absurd hmem (hnone bytes)⟩

end Sys2Proof.Machine
end

section
/-! PROOFS. The two round trips of the binary encoding (30_encoding.md level 2). Laws/Encoding.lean says what each
reader answers on the words of the encoder; what follows says the converse, that a reader takes nothing but the words of
what it answers, and answers nothing that has no encoding. -/

namespace Sys2Proof

/-! ## From an instruction to its words and back -/

/-- An integer operand is read, and what follows it is left to the next reader. -/
theorem readInt_words_bind {α : Type} {z : Int} (h : fitsWord z = true) (ws : List Word)
    (f : Int × List Word → Option α) : (readInt (intWord z :: ws) >>= f) = f (z, ws) := by
  rw [readInt, toInt_intWord h]
  rfl

theorem readValueFor_words (mk : Value → Instr) {v : Value} (h : v.wf = true) :
    readValueFor mk v.kind v.words = some (mk v, []) := by
  have hread := readValue_words h []
  rw [List.append_nil] at hread
  simp [readValueFor, hread]

/-- R78: the slices of a packed word are its four bytes. -/
theorem slices_of_append (b0 b1 b2 b3 : Byte) :
    (b0 ++ b1 ++ b2 ++ b3).extractLsb' 24 8 = b0 ∧ (b0 ++ b1 ++ b2 ++ b3).extractLsb' 16 8 = b1 ∧
      (b0 ++ b1 ++ b2 ++ b3).extractLsb' 8 8 = b2 ∧ (b0 ++ b1 ++ b2 ++ b3).extractLsb' 0 8 = b3 := by
  refine ⟨?_, ?_, ?_, ?_⟩
  · rw [BitVec.extractLsb'_append_eq_of_le (by decide), BitVec.extractLsb'_append_eq_of_le (by decide)]
    exact BitVec.extractLsb'_append_eq_left
  · rw [BitVec.extractLsb'_append_eq_of_le (by decide), BitVec.extractLsb'_append_eq_of_le (by decide)]
    exact BitVec.extractLsb'_append_eq_right
  · rw [BitVec.extractLsb'_append_eq_of_le (by decide)]
    exact BitVec.extractLsb'_append_eq_right
  · exact BitVec.extractLsb'_append_eq_right

/-- R78: a packed word is made of its slices. -/
theorem append_of_slices (w : Word) :
    w.extractLsb' 24 8 ++ w.extractLsb' 16 8 ++ w.extractLsb' 8 8 ++ w.extractLsb' 0 8 = w := by
  have hjoin : w.extractLsb' 24 8 ++ w.extractLsb' 16 8 ++ w.extractLsb' 8 8 ++ w.extractLsb' 0 8 =
      w.extractLsb' 0 32 := by
    rw [BitVec.extractLsb'_append_extractLsb'_eq_extractLsb' (show 24 = 16 + 8 from rfl),
      BitVec.extractLsb'_append_extractLsb'_eq_extractLsb' (show 16 = 8 + 8 from rfl),
      BitVec.extractLsb'_append_extractLsb'_eq_extractLsb' (show 8 = 0 + 8 from rfl)]
  exact hjoin.trans BitVec.extractLsb'_eq_self

theorem readGroupWord_word (b0 b1 b2 b3 : Byte) :
    readGroupWord [b0 ++ b1 ++ b2 ++ b3] = some (.compress b0 b1 b2 b3, []) := by
  obtain ⟨h0, h1, h2, h3⟩ := slices_of_append b0 b1 b2 b3
  simp only [readGroupWord]
  rw [h0, h1, h2, h3]

/-- A range GET, and each range SET, reads its bounds and hands what follows to the reader of its value. -/
theorem readRange_words_bind {α : Type} {a b c : Option Int} (h : rangeWf a b c = true) (ws : List Word)
    (f : (Option Int × Option Int × Option Int) × List Word → Option α) :
    (readRange a.isSome b.isSome c.isSome (rangeWords a b c ++ ws) >>= f) = f ((a, b, c), ws) := by
  rw [readRange_words h]
  rfl

/-- R79: the operand words of a well-formed instruction are read back whole under its header. -/
theorem readOperands_operandWords {i : Instr} (h : i.wf = true) :
    readOperands i.header i.operandWords = some (i, []) := by
  cases i with
  | expand x => exact readValueFor_words _ h
  | rotate x => exact readValueFor_words _ h
  | compress b0 b1 b2 b3 => exact readGroupWord_word b0 b1 b2 b3
  | getA3 | getA4 | getA5 | getA6 | getA7 | getA8 | count | write => rfl
  | setA3 v | setA4 v | setA5 v | setA6 v | setA7 v | setA8 v => exact readValueFor_words _ h
  | getP p =>
    exact readInt_words_bind h [] _
  | getC p c =>
    rw [Instr.wf, Bool.and_eq_true] at h
    obtain ⟨hp, hc⟩ := h
    exact (readInt_words_bind hp [intWord c] _).trans (readInt_words_bind hc [] _)
  | setP p v =>
    rw [Instr.wf, Bool.and_eq_true] at h
    obtain ⟨hp, hv⟩ := h
    exact (readInt_words_bind hp v.words _).trans (readValueFor_words _ hv)
  | setC p c v =>
    simp only [Instr.wf, Bool.and_eq_true] at h
    obtain ⟨⟨hp, hc⟩, hv⟩ := h
    exact (readInt_words_bind hp (intWord c :: v.words) _).trans
      ((readInt_words_bind hc v.words _).trans (readValueFor_words _ hv))
  | getR a b c =>
    rw [Instr.operandWords, ← List.append_nil (rangeWords a b c)]
    exact readRange_words_bind h [] _
  | setRX3 a b c =>
    rw [Instr.operandWords, ← List.append_nil (rangeWords a b c)]
    exact readRange_words_bind h [] _
  | setRX0 a b c v =>
    rw [Instr.wf, Bool.and_eq_true] at h
    obtain ⟨hr, hv⟩ := h
    exact (readRange_words_bind hr [intWord v] _).trans (readInt_words_bind hv [] _)
  | setRB a b c xs =>
    rw [Instr.wf, Bool.and_eq_true] at h
    obtain ⟨hr, hxs⟩ := h
    refine (readRange_words_bind hr (seqWords xs) _).trans ?_
    rw [← List.append_nil (seqWords xs)]
    change (readSeq (seqWords xs ++ []) >>= _) = _
    rw [readSeq_words hxs]
    rfl
  | setRL a b c es =>
    simp only [Instr.wf, Bool.and_eq_true] at h
    obtain ⟨hr, hcount, hes⟩ := h
    refine (readRange_words_bind hr (seqSeqWords es) _).trans ?_
    rw [← List.append_nil (seqSeqWords es)]
    change (readSeqSeq (seqSeqWords es ++ []) >>= _) = _
    rw [readSeqSeq_words hcount hes]
    rfl

/-- Settles O48: the header word spells the header, and under it the operand words are read back whole. -/
theorem decodeOfEncode : Obligations.DecodeOfEncode := by
  intro i h
  rw [encode, decode, decodeHeader_encodeHeader]
  simp only [readOperands_operandWords h]

/-! ## From words to an instruction and back -/

theorem fitsWord_toInt (w : Word) : fitsWord w.toInt = true := by
  have hlow := BitVec.le_toInt w
  have hhigh := BitVec.toInt_lt (x := w)
  simp only [fitsWord, Bool.and_eq_true, decide_eq_true_eq]
  omega

theorem fitsCount_toNat (w : Word) : fitsCount w.toNat = true := by
  simpa [fitsCount] using w.isLt

theorem readInt_eq_some {ws rest : List Word} {z : Int} (h : readInt ws = some (z, rest)) :
    ws = intWord z :: rest ∧ fitsWord z = true := by
  cases ws with
  | nil => cases h
  | cons w ws =>
    cases h
    exact ⟨by rw [intWord_toInt], fitsWord_toInt w⟩

theorem readCount_eq_some {ws rest : List Word} {n : Nat} (h : readCount ws = some (n, rest)) :
    ws = countWord n :: rest ∧ fitsCount n = true := by
  cases ws with
  | nil => cases h
  | cons w ws =>
    cases h
    exact ⟨by rw [countWord_toNat], fitsCount_toNat w⟩

/-- The components that words spell. -/
theorem map_word_map_toInt (ws : List Word) : (ws.map fun w : Word => Comp.int w.toInt).map Comp.word = ws := by
  rw [List.map_map]
  exact List.map_id'' intWord_toInt ws

theorem all_wf_map_toInt (ws : List Word) : (ws.map fun w : Word => Comp.int w.toInt).all Comp.wf = true := by
  simp [Comp.wf, fitsWord_toInt]

theorem readComps_eq_some {n : Nat} {ws rest : List Word} {xs : List Comp} (h : readComps n ws = some (xs, rest)) :
    xs.length = n ∧ ws = xs.map Comp.word ++ rest ∧ xs.all Comp.wf = true := by
  rw [readComps] at h
  split at h
  next hn =>
    cases h
    exact ⟨by simp [hn], by rw [map_word_map_toInt, List.take_append_drop], all_wf_map_toInt _⟩
  next => cases h

theorem readSeq_eq_some {ws rest : List Word} {xs : List Comp} (h : readSeq ws = some (xs, rest)) :
    ws = seqWords xs ++ rest ∧ seqWf xs = true := by
  obtain ⟨⟨n, ws'⟩, hcount, hcomps⟩ := Option.bind_eq_some_iff.mp h
  obtain ⟨rfl, hn⟩ := readCount_eq_some hcount
  obtain ⟨rfl, rfl, hxs⟩ := readComps_eq_some hcomps
  exact ⟨rfl, by rw [seqWf, hn, hxs]; rfl⟩

theorem readElems_eq_some {m : Nat} :
    ∀ {ws rest : List Word} {es : List (List Comp)}, readElems m ws = some (es, rest) →
    es.length = m ∧ ws = es.flatMap seqWords ++ rest ∧ es.all seqWf = true := by
  induction m with
  | zero => intro ws rest es h; cases h; exact ⟨rfl, rfl, rfl⟩
  | succ m ih =>
    intro ws rest es h
    obtain ⟨⟨x, ws'⟩, hseq, htail⟩ := Option.bind_eq_some_iff.mp h
    obtain ⟨⟨xs, ws''⟩, helems, hcons⟩ := Option.bind_eq_some_iff.mp htail
    cases hcons
    obtain ⟨rfl, hx⟩ := readSeq_eq_some hseq
    obtain ⟨rfl, rfl, hxs⟩ := ih helems
    exact ⟨rfl, by simp, by rw [List.all_cons, hx, hxs]; rfl⟩

theorem readSeqSeq_eq_some {ws rest : List Word} {es : List (List Comp)} (h : readSeqSeq ws = some (es, rest)) :
    ws = seqSeqWords es ++ rest ∧ fitsCount es.length = true ∧ es.all seqWf = true := by
  obtain ⟨⟨m, ws'⟩, hcount, helems⟩ := Option.bind_eq_some_iff.mp h
  obtain ⟨rfl, hm⟩ := readCount_eq_some hcount
  obtain ⟨rfl, rfl, hes⟩ := readElems_eq_some helems
  exact ⟨rfl, hm, hes⟩

theorem readValue_eq_some {k : ValueKind} {ws rest : List Word} {v : Value} (h : readValue k ws = some (v, rest)) :
    v.kind = k ∧ ws = v.words ++ rest ∧ v.wf = true := by
  cases k with
  | scalar =>
    obtain ⟨⟨z, ws'⟩, hint, hv⟩ := Option.bind_eq_some_iff.mp h
    cases hv
    obtain ⟨rfl, hz⟩ := readInt_eq_some hint
    exact ⟨rfl, rfl, hz⟩
  | seq =>
    obtain ⟨⟨xs, ws'⟩, hseq, hv⟩ := Option.bind_eq_some_iff.mp h
    cases hv
    obtain ⟨rfl, hxs⟩ := readSeq_eq_some hseq
    exact ⟨rfl, rfl, hxs⟩
  | seqSeq =>
    obtain ⟨⟨es, ws'⟩, hseqs, hv⟩ := Option.bind_eq_some_iff.mp h
    cases hv
    obtain ⟨rfl, hm, hes⟩ := readSeqSeq_eq_some hseqs
    exact ⟨rfl, rfl, by rw [Value.wf, hm, hes]; rfl⟩
  | nonInt => cases h; exact ⟨rfl, rfl, rfl⟩

theorem readBound_eq_some {p : Bool} {ws rest : List Word} {b : Option Int} (h : readBound p ws = some (b, rest)) :
    b.isSome = p ∧ ws = boundWords b ++ rest ∧ boundWf b = true := by
  match p, ws, h with
  | false, ws, h => cases h; exact ⟨rfl, rfl, rfl⟩
  | true, [], h => cases h
  | true, w :: ws, h =>
    cases h
    exact ⟨rfl, by simp [boundWords, intWord_toInt], fitsWord_toInt w⟩

theorem readRange_eq_some {p q r : Bool} {ws rest : List Word} {a b c : Option Int}
    (h : readRange p q r ws = some ((a, b, c), rest)) :
    rangeClass a b c = .range p q r ∧ ws = rangeWords a b c ++ rest ∧ rangeWf a b c = true := by
  obtain ⟨⟨a', ws1⟩, ha, h⟩ := Option.bind_eq_some_iff.mp h
  obtain ⟨⟨b', ws2⟩, hb, h⟩ := Option.bind_eq_some_iff.mp h
  obtain ⟨⟨c', ws3⟩, hc, h⟩ := Option.bind_eq_some_iff.mp h
  cases h
  obtain ⟨rfl, rfl, hawf⟩ := readBound_eq_some ha
  obtain ⟨rfl, rfl, hbwf⟩ := readBound_eq_some hb
  obtain ⟨rfl, rfl, hcwf⟩ := readBound_eq_some hc
  exact ⟨rfl, by simp [rangeWords], by rw [rangeWf, hawf, hbwf, hcwf]; rfl⟩

/-- `i` is a well-formed instruction with the header `hd`, and its operand words are `ws` up to `rest`. -/
structure Instr.SpelledBy (i : Instr) (hd : Header) (ws rest : List Word) : Prop where
  header : i.header = hd
  words : ws = i.operandWords ++ rest
  wf : i.wf = true

theorem readValueFor_eq_some {mk : Value → Instr} {k : ValueKind} {ws rest : List Word} {i : Instr}
    (h : readValueFor mk k ws = some (i, rest)) :
    ∃ v : Value, i = mk v ∧ v.kind = k ∧ ws = v.words ++ rest ∧ v.wf = true := by
  obtain ⟨⟨v, ws'⟩, hv, hi⟩ := Option.bind_eq_some_iff.mp h
  cases hi
  exact ⟨v, rfl, readValue_eq_some hv⟩

theorem spelledBy_of_readGroupWord {ws rest : List Word} {i : Instr} (h : readGroupWord ws = some (i, rest)) :
    i.SpelledBy .compress ws rest := by
  cases ws with
  | nil => cases h
  | cons w ws =>
    cases h
    exact ⟨rfl, congrArg (· :: rest) (append_of_slices w).symm, rfl⟩

theorem spelledBy_of_readGet {a : AddrClass} {ws rest : List Word} {i : Instr} (h : readGet a ws = some (i, rest)) :
    i.SpelledBy (.get a) ws rest := by
  cases a with
  | single =>
    obtain ⟨⟨p, ws'⟩, hp, hi⟩ := Option.bind_eq_some_iff.mp h
    cases hi
    obtain ⟨rfl, hpwf⟩ := readInt_eq_some hp
    exact ⟨rfl, rfl, hpwf⟩
  | pair =>
    obtain ⟨⟨p, ws'⟩, hp, h⟩ := Option.bind_eq_some_iff.mp h
    obtain ⟨⟨c, ws''⟩, hc, hi⟩ := Option.bind_eq_some_iff.mp h
    cases hi
    obtain ⟨rfl, hpwf⟩ := readInt_eq_some hp
    obtain ⟨rfl, hcwf⟩ := readInt_eq_some hc
    exact ⟨rfl, rfl, by rw [Instr.wf, hpwf, hcwf]; rfl⟩
  | range p q r =>
    obtain ⟨⟨⟨a, b, c⟩, ws'⟩, hr, hi⟩ := Option.bind_eq_some_iff.mp h
    cases hi
    obtain ⟨hclass, rfl, hwf⟩ := readRange_eq_some hr
    exact ⟨congrArg Header.get hclass, rfl, hwf⟩
  | singleNonInt | pairNonInt | pairRange | ndimOver | ndimZero | rangeNonInt => cases h; exact ⟨rfl, rfl, rfl⟩

/-- The four range SETs, whose bounds have been read. -/
theorem spelledBy_of_readRangeValue {a b c : Option Int} {k : ValueKind} {ws rest : List Word} {i : Instr}
    (hr : rangeWf a b c = true) (h : readRangeValue a b c k ws = some (i, rest)) :
    i.SpelledBy (.set (rangeClass a b c) k) (rangeWords a b c ++ ws) rest := by
  cases k with
  | scalar =>
    obtain ⟨⟨z, ws'⟩, hz, hi⟩ := Option.bind_eq_some_iff.mp h
    cases hi
    obtain ⟨rfl, hzwf⟩ := readInt_eq_some hz
    exact ⟨rfl, by simp [Instr.operandWords], by rw [Instr.wf, hr, hzwf]; rfl⟩
  | seq =>
    obtain ⟨⟨xs, ws'⟩, hxs, hi⟩ := Option.bind_eq_some_iff.mp h
    cases hi
    obtain ⟨rfl, hxswf⟩ := readSeq_eq_some hxs
    exact ⟨rfl, by simp [Instr.operandWords], by rw [Instr.wf, hr, hxswf]; rfl⟩
  | seqSeq =>
    obtain ⟨⟨es, ws'⟩, hes, hi⟩ := Option.bind_eq_some_iff.mp h
    cases hi
    obtain ⟨rfl, hcount, heswf⟩ := readSeqSeq_eq_some hes
    exact ⟨rfl, by simp [Instr.operandWords], by rw [Instr.wf, hr, hcount, heswf]; rfl⟩
  | nonInt => cases h; exact ⟨rfl, rfl, hr⟩

theorem spelledBy_of_readSet {a : AddrClass} {k : ValueKind} {ws rest : List Word} {i : Instr}
    (h : readSet a k ws = some (i, rest)) : i.SpelledBy (.set a k) ws rest := by
  cases a with
  | single =>
    obtain ⟨⟨p, ws'⟩, hp, hi⟩ := Option.bind_eq_some_iff.mp h
    obtain ⟨rfl, hpwf⟩ := readInt_eq_some hp
    obtain ⟨v, rfl, rfl, rfl, hv⟩ := readValueFor_eq_some hi
    exact ⟨rfl, rfl, by rw [Instr.wf, hpwf, hv]; rfl⟩
  | pair =>
    obtain ⟨⟨p, ws'⟩, hp, h⟩ := Option.bind_eq_some_iff.mp h
    obtain ⟨⟨c, ws''⟩, hc, hi⟩ := Option.bind_eq_some_iff.mp h
    obtain ⟨rfl, hpwf⟩ := readInt_eq_some hp
    obtain ⟨rfl, hcwf⟩ := readInt_eq_some hc
    obtain ⟨v, rfl, rfl, rfl, hv⟩ := readValueFor_eq_some hi
    exact ⟨rfl, rfl, by rw [Instr.wf, hpwf, hcwf, hv]; rfl⟩
  | range p q r =>
    obtain ⟨⟨⟨a, b, c⟩, ws'⟩, hr, hi⟩ := Option.bind_eq_some_iff.mp h
    obtain ⟨hclass, rfl, hwf⟩ := readRange_eq_some hr
    exact hclass ▸ spelledBy_of_readRangeValue hwf hi
  | singleNonInt | pairNonInt | pairRange | ndimOver | ndimZero | rangeNonInt =>
    obtain ⟨v, rfl, rfl, rfl, hv⟩ := readValueFor_eq_some h
    exact ⟨rfl, rfl, hv⟩

/-- R79: whatever operand words a header reads are those of the instruction it reads from them. -/
theorem spelledBy_of_readOperands {hd : Header} {ws rest : List Word} {i : Instr}
    (h : readOperands hd ws = some (i, rest)) : i.SpelledBy hd ws rest := by
  cases hd with
  | expand k | rotate k =>
    obtain ⟨v, rfl, rfl, rfl, hv⟩ := readValueFor_eq_some h
    exact ⟨rfl, rfl, hv⟩
  | compress => exact spelledBy_of_readGroupWord h
  | get a => exact spelledBy_of_readGet h
  | set a k => exact spelledBy_of_readSet h
  | count | write => cases h; exact ⟨rfl, rfl, rfl⟩

/-- R71 to R75: a legal header word is the word of the header it spells. -/
theorem encodeHeader_of_decodeHeader {w : Word} {hd : Header} (h : decodeHeader w = some hd) :
    encodeHeader hd = w := by
  have hset : bits w 23 15 = bits w 23 17 * 4 + bits w 16 15 := by unfold bits; omega
  rw [decodeHeader] at h
  split at h
  · cases h
  next hzero =>
    rw [ne_eq, not_not] at hzero
    split at h
    case h_1 hopc | h_6 hopc =>
      obtain ⟨hkey, ⟨⟩⟩ := Option.ite_none_right_eq_some.mp h
      exact headerWord_of_bits hzero hopc hkey (decodeVK_code w).symm
    case h_2 hopc | h_5 hopc | h_7 hopc =>
      obtain ⟨hkey, ⟨⟩⟩ := Option.ite_none_right_eq_some.mp h
      exact headerWord_of_bits hzero hopc (by omega) (by omega)
    case h_3 hopc =>
      obtain ⟨hvk, h⟩ := Option.ite_none_right_eq_some.mp h
      obtain ⟨a, ha, rfl⟩ := Option.map_eq_some_iff.mp h
      exact headerWord_of_bits hzero hopc (decodeAK_code ha).symm hvk
    case h_4 hopc =>
      obtain ⟨a, ha, rfl⟩ := Option.map_eq_some_iff.mp h
      exact headerWord_of_bits hzero hopc (decodeAK_code ha).symm (decodeVK_code w).symm
    case h_8 => cases h

/-- A word sequence that decodes to an instruction is a legal header with the instruction's operand words. -/
theorem decode_eq_instr {words : List Word} {i : Instr} (h : decode words = .instr i) :
    ∃ w ws hd, words = w :: ws ∧ decodeHeader w = some hd ∧ readOperands hd ws = some (i, []) := by
  unfold decode at h
  split at h
  · cases h
  next w ws =>
    split at h
    · split at h <;> cases h
    next hd hhd =>
      split at h
      · cases h
      next i' hread => cases h; exact ⟨w, ws, hd, rfl, hhd, hread⟩
      · cases h

/-- Settles O49: the header word and the operand words are each the ones the encoder writes. -/
theorem encodeOfDecode : Obligations.EncodeOfDecode := by
  intro words i h
  obtain ⟨w, ws, hd, rfl, hhd, hread⟩ := decode_eq_instr h
  obtain ⟨hheader, hwords, hwf⟩ := spelledBy_of_readOperands hread
  refine ⟨?_, hwf⟩
  rw [encode, hheader, encodeHeader_of_decodeHeader hhd, hwords, List.append_nil]

end Sys2Proof
end

section
/-! PROOFS. The command length (30_encoding.md R80): every reader takes as many words as the length function says, and
fails exactly when there are fewer. -/

namespace Sys2Proof

/-! ## How many words a reader takes -/

/-- The reading `x` of `ws` takes its first `n` words, or fails because there are fewer. -/
def TakesWords {α : Type} (x : Option (α × List Word)) (ws : List Word) (n : Nat) : Prop :=
  if n ≤ ws.length then ∃ a, x = some (a, ws.drop n) else x = none

section
variable {α β : Type}

theorem takesWords_some (a : α) (ws : List Word) : TakesWords (some (a, ws)) ws 0 := by
  simp [TakesWords]

theorem TakesWords.bind {x : Option (α × List Word)} {f : α × List Word → Option (β × List Word)} {ws : List Word}
    {n m : Nat} (hx : TakesWords x ws n) (hf : ∀ a, TakesWords (f (a, ws.drop n)) (ws.drop n) m) :
    TakesWords (x >>= f) ws (n + m) := by
  rw [TakesWords] at hx
  split at hx
  next hn =>
    obtain ⟨a, rfl⟩ := hx
    have hrest := hf a
    rw [TakesWords, List.length_drop, List.drop_drop] at hrest
    have hiff : m ≤ ws.length - n ↔ n + m ≤ ws.length := by omega
    simpa [TakesWords, hiff] using hrest
  next hn =>
    subst hx
    rw [TakesWords, if_neg (by omega)]
    rfl

/-- A reading whose result is only renamed takes the same words. -/
theorem TakesWords.map {x : Option (α × List Word)} {ws : List Word} {n : Nat} (hx : TakesWords x ws n) (g : α → β) :
    TakesWords (x >>= fun p => some (g p.1, p.2)) ws n :=
  hx.bind (m := 0) fun a => takesWords_some (g a) _

/-- A count word in front that has been read. -/
theorem TakesWords.cons {x : Option (α × List Word)} {ws : List Word} {n : Nat} (hx : TakesWords x ws n) (w : Word) :
    TakesWords x (w :: ws) (1 + n) := by
  rw [TakesWords] at hx ⊢
  rw [List.length_cons, Nat.add_comm 1 n, List.drop_succ_cons]
  simpa only [Nat.add_le_add_iff_right] using hx

theorem takesWords_none_nil (n : Nat) : TakesWords (none : Option (α × List Word)) [] (1 + n) := by
  rw [TakesWords, if_neg (by simp)]

end

theorem readInt_takes (ws : List Word) : TakesWords (readInt ws) ws 1 := by
  cases ws with
  | nil => exact takesWords_none_nil 0
  | cons w ws => exact (takesWords_some w.toInt ws).cons w

theorem readBound_takes (p : Bool) (ws : List Word) : TakesWords (readBound p ws) ws p.toNat := by
  match p, ws with
  | false, ws => exact takesWords_some none ws
  | true, [] => exact takesWords_none_nil 0
  | true, w :: ws => exact (takesWords_some (some w.toInt) ws).cons w

theorem readRange_takes (p q r : Bool) (ws : List Word) :
    TakesWords (readRange p q r ws) ws (p.toNat + q.toNat + r.toNat) := by
  rw [Nat.add_assoc]
  exact (readBound_takes p ws).bind fun a => (readBound_takes q _).bind fun b =>
    (readBound_takes r _).map fun c => (a, b, c)

theorem readComps_takes (n : Nat) (ws : List Word) : TakesWords (readComps n ws) ws n := by
  rw [TakesWords, readComps]
  split <;> simp

theorem readSeq_takes (ws : List Word) : TakesWords (readSeq ws) ws (1 + (ws.headD 0).toNat) := by
  cases ws with
  | nil => exact takesWords_none_nil _
  | cons w ws => exact (readComps_takes w.toNat ws).cons w

theorem readElems_takes (m : Nat) : ∀ ws : List Word, TakesWords (readElems m ws) ws (elemsLength m ws) := by
  induction m with
  | zero => exact fun ws => takesWords_some [] ws
  | succ m ih => exact fun ws => (readSeq_takes ws).bind fun e => (ih _).map fun es => e :: es

theorem readSeqSeq_takes (ws : List Word) :
    TakesWords (readSeqSeq ws) ws (1 + elemsLength (ws.headD 0).toNat ws.tail) := by
  cases ws with
  | nil => exact takesWords_none_nil _
  | cons w ws => exact (readElems_takes w.toNat ws).cons w

theorem readValue_takes (k : ValueKind) (ws : List Word) : TakesWords (readValue k ws) ws (payloadLength k ws) := by
  cases k with
  | scalar => exact (readInt_takes ws).map fun z => Value.scalar (.int z)
  | seq => exact (readSeq_takes ws).map Value.seq
  | seqSeq => exact (readSeqSeq_takes ws).map Value.seqSeq
  | nonInt => exact takesWords_some _ ws

theorem readValueFor_takes (mk : Value → Instr) (k : ValueKind) (ws : List Word) :
    TakesWords (readValueFor mk k ws) ws (payloadLength k ws) :=
  (readValue_takes k ws).map mk

theorem readRangeValue_takes (a b c : Option Int) (k : ValueKind) (ws : List Word) :
    TakesWords (readRangeValue a b c k ws) ws (payloadLength k ws) := by
  cases k with
  | scalar => exact (readInt_takes ws).map fun z => Instr.setRX0 a b c z
  | seq => exact (readSeq_takes ws).map fun xs => Instr.setRB a b c xs
  | seqSeq => exact (readSeqSeq_takes ws).map fun es => Instr.setRL a b c es
  | nonInt => exact takesWords_some _ ws

theorem readGet_takes (a : AddrClass) (ws : List Word) : TakesWords (readGet a ws) ws a.words := by
  cases a with
  | single => exact (readInt_takes ws).map Instr.getP
  | pair => exact (readInt_takes ws).bind (m := 1) fun p => (readInt_takes _).map fun c => Instr.getC p c
  | range p q r => exact (readRange_takes p q r ws).map fun abc => Instr.getR abc.1 abc.2.1 abc.2.2
  | singleNonInt | pairNonInt | pairRange | ndimOver | ndimZero | rangeNonInt => exact takesWords_some _ ws

theorem readSet_takes (a : AddrClass) (k : ValueKind) (ws : List Word) :
    TakesWords (readSet a k ws) ws (a.words + payloadLength k (ws.drop a.words)) := by
  cases a with
  | single => exact (readInt_takes ws).bind fun p => readValueFor_takes _ k _
  | pair =>
    have hvalue : ws.drop 2 = (ws.drop 1).drop 1 := by rw [List.drop_drop]
    rw [AddrClass.words, Nat.add_assoc 1 1, hvalue]
    exact (readInt_takes ws).bind fun p => (readInt_takes _).bind fun c => readValueFor_takes _ k _
  | range p q r => exact (readRange_takes p q r ws).bind fun abc => readRangeValue_takes _ _ _ k _
  | singleNonInt | pairNonInt | pairRange | ndimOver | ndimZero | rangeNonInt =>
    rw [AddrClass.words, Nat.zero_add, List.drop_zero]
    exact readValueFor_takes _ k ws

/-- R80: `A + V` is what a legal header's operands take. -/
theorem readOperands_takes (hd : Header) (ws : List Word) :
    TakesWords (readOperands hd ws) ws (operandLength hd ws) := by
  cases hd with
  | expand k | rotate k => exact readValueFor_takes _ k ws
  | compress =>
    cases ws with
    | nil => exact takesWords_none_nil 0
    | cons w ws => exact (takesWords_some _ ws).cons w
  | get a => exact readGet_takes a ws
  | set a k => exact readSet_takes a k ws
  | count | write => exact takesWords_some _ ws

/-! ## What a word sequence is, by its length -/

theorem commandLength_of_legal {h : Word} {hd : Header} (hh : decodeHeader h = some hd) (ws : List Word) :
    commandLength (h :: ws) = 1 + operandLength hd ws := by
  rw [commandLength, hh]

theorem commandLength_of_illegal {h : Word} (hh : decodeHeader h = none) (ws : List Word) :
    commandLength (h :: ws) = 1 := by
  rw [commandLength, hh]

theorem decode_of_illegal {h : Word} (hh : decodeHeader h = none) (ws : List Word) :
    decode (h :: ws) = if ws = [] then .illegalHeader else .tooLong := by
  rw [decode, hh]

/-- Under a legal header the length alone decides. -/
theorem decode_of_legal {h : Word} {hd : Header} (hh : decodeHeader h = some hd) (ws : List Word) :
    (ws.length < operandLength hd ws ∧ decode (h :: ws) = .tooShort) ∨
      (ws.length = operandLength hd ws ∧ ∃ i, decode (h :: ws) = .instr i) ∨
      (operandLength hd ws < ws.length ∧ decode (h :: ws) = .tooLong) := by
  have htakes := readOperands_takes hd ws
  rw [TakesWords] at htakes
  simp only [decode, hh]
  split at htakes
  next hn =>
    obtain ⟨i, hread⟩ := htakes
    rw [hread]
    rcases Nat.eq_or_lt_of_le hn with heq | hlt
    · have hrest : ws.drop (operandLength hd ws) = [] := List.drop_eq_nil_of_le heq.ge
      exact .inr (.inl ⟨heq.symm, i, by rw [hrest]⟩)
    · obtain ⟨w, rest, hrest⟩ : ∃ w rest, ws.drop (operandLength hd ws) = w :: rest :=
        List.exists_cons_of_length_pos (by rw [List.length_drop]; omega)
      exact .inr (.inr ⟨hlt, by rw [hrest]⟩)
  next hn =>
    rw [htakes]
    exact .inl ⟨by omega, rfl⟩

/-- Settles O50: under an illegal header the length is 1 whatever follows; under a legal one the length decides. -/
theorem commandLengthExact : Obligations.CommandLengthExact := by
  intro h ws
  cases hh : decodeHeader h with
  | none =>
    rw [decode_of_illegal hh, commandLength_of_illegal hh]
    cases ws <;> simp
  | some hd =>
    rw [commandLength_of_legal hh, List.length_cons]
    rcases decode_of_legal hh ws with ⟨hlen, hdec⟩ | ⟨hlen, i, hdec⟩ | ⟨hlen, hdec⟩
    · simp [hdec]; omega
    · simp [hdec]; omega
    · simp [hdec]; omega

/-- A sequence that is not as long as its command is no command. -/
theorem decode_of_wrong_length {words : List Word} (h : words.length ≠ commandLength words) :
    decode words = .tooShort ∨ decode words = .tooLong := by
  cases words with
  | nil => exact .inl rfl
  | cons w ws =>
    obtain ⟨-, -, hshort, hlong⟩ := commandLengthExact w ws
    exact (Nat.lt_or_gt_of_ne h).imp hshort.mpr hlong.mpr

/-- Settles O51: each sequence of the spec, read by the decoder. -/
theorem wordsOfTheSpec : Obligations.WordsOfTheSpec := by
  unfold Obligations.WordsOfTheSpec
  decide

end Sys2Proof
end

section
/-! PROOFS. Which header words are legal (30_encoding.md R79, R88, R90): by their fields, as the words of the 91
headers, and by the rows of the opcode table. -/

namespace Sys2Proof

/-! ## By the fields -/

/-- The two spellings of a slice: as a number and as a bit string. -/
theorem toNat_extractLsb'_eq_bits (w : Word) {hi lo n : Nat} (h : n = hi + 1 - lo) :
    (w.extractLsb' lo n).toNat = bits w hi lo := by
  rw [BitVec.extractLsb'_toNat, Nat.shiftRight_eq_div_pow, bits, h]

/-- R88: a reserved AK, or S, E and T bits without a range. -/
theorem decodeAK_eq_none_iff (w : Word) :
    decodeAK w = none ↔ 9 ≤ bits w 23 20 ∨ (bits w 23 20 ≠ 2 ∧ bits w 19 17 ≠ 0) := by
  have hAK : bits w 23 20 < 16 := Nat.mod_lt _ (by decide)
  unfold decodeAK
  generalize bits w 23 20 = ak at *
  split
  next hrange => simp [hrange]
  next hrange =>
    split
    next hset => simp [hrange, hset]
    next hset =>
      rw [not_not] at hset
      interval_cases ak <;> simp_all

theorem decodeHeader_eq_none_iff (w : Word) :
    decodeHeader w = none ↔ bits w 14 0 ≠ 0 ∨ bits w 31 24 = 0 ∨ 8 ≤ bits w 31 24 ∨
      ((bits w 31 24 = 3 ∨ bits w 31 24 = 4) ∧ (9 ≤ bits w 23 20 ∨ (bits w 23 20 ≠ 2 ∧ bits w 19 17 ≠ 0))) ∨
      (bits w 31 24 = 3 ∧ bits w 16 15 ≠ 0) ∨
      ((bits w 31 24 = 1 ∨ bits w 31 24 = 6) ∧ (bits w 23 20 ≠ 0 ∨ bits w 19 17 ≠ 0)) ∨
      ((bits w 31 24 = 2 ∨ bits w 31 24 = 5 ∨ bits w 31 24 = 7) ∧
        (bits w 23 20 ≠ 0 ∨ bits w 19 17 ≠ 0 ∨ bits w 16 15 ≠ 0)) := by
  have hset : bits w 23 17 = 0 ↔ bits w 23 20 = 0 ∧ bits w 19 17 = 0 := by unfold bits; omega
  have hlow : bits w 23 15 = 0 ↔ bits w 23 20 = 0 ∧ bits w 19 17 = 0 ∧ bits w 16 15 = 0 := by unfold bits; omega
  have hAK := decodeAK_eq_none_iff w
  unfold decodeHeader
  split
  next hzero => simp [hzero]
  next hzero =>
    rw [not_not] at hzero
    split
    case h_1 hopc | h_6 hopc => simp [hzero, hopc, hset, imp_iff_not_or]
    case h_2 hopc | h_5 hopc | h_7 hopc => simp [hzero, hopc, hlow, imp_iff_not_or]
    case h_3 hopc => simp [hzero, hopc, hAK, imp_iff_not_or, or_comm]
    case h_4 hopc => simp [hzero, hopc, hAK]
    case h_8 h1 h2 h3 h4 h5 h6 h7 =>
      rw [imp_false] at h1 h2 h3 h4 h5 h6 h7
      have hreserved : bits w 31 24 = 0 ∨ 8 ≤ bits w 31 24 := by omega
      exact iff_of_true rfl (.inr (hreserved.imp_right .inl))

/-- Settles O46: the fields as numbers, read as slices. -/
theorem headerIllegalExactly : Obligations.HeaderIllegalExactly := by
  intro w
  rw [decodeHeader_eq_none_iff]
  simp only [ne_eq, BitVec.toNat_eq, BitVec.reduceToNat,
    toNat_extractLsb'_eq_bits w (show 15 = 14 + 1 - 0 from rfl),
    toNat_extractLsb'_eq_bits w (show 8 = 31 + 1 - 24 from rfl),
    toNat_extractLsb'_eq_bits w (show 4 = 23 + 1 - 20 from rfl),
    toNat_extractLsb'_eq_bits w (show 3 = 19 + 1 - 17 from rfl),
    toNat_extractLsb'_eq_bits w (show 2 = 16 + 1 - 15 from rfl)]

/-! ## As the words of the 91 headers -/

theorem mem_allKinds (k : ValueKind) : k ∈ allKinds := by cases k <;> decide

theorem mem_allClasses (a : AddrClass) : a ∈ allClasses := by
  cases a with
  | range s e t => revert s e t; decide
  | _ => decide

theorem mem_allHeaders (hd : Header) : hd ∈ allHeaders := by
  cases hd <;> simp [allHeaders, mem_allKinds, mem_allClasses]

theorem encodeHeader_injective : Function.Injective encodeHeader := by
  intro hd hd' h
  have hdec := congrArg decodeHeader h
  rwa [decodeHeader_encodeHeader, decodeHeader_encodeHeader, Option.some.injEq] at hdec

/-- A word is legal exactly when it is the word of a header. -/
theorem decodeHeader_isSome_iff (w : Word) : (decodeHeader w).isSome = true ↔ ∃ hd, encodeHeader hd = w := by
  constructor
  · intro h
    obtain ⟨hd, hhd⟩ := Option.isSome_iff_exists.mp h
    exact ⟨hd, encodeHeader_of_decodeHeader hhd⟩
  · rintro ⟨hd, rfl⟩
    rw [decodeHeader_encodeHeader]
    rfl

/-! ## By the rows of the opcode table -/

/-- The row of a header (R90): the address class selects it, and for a range SET the value kind. -/
def Header.row : Header → Row
  | .expand _ => ⟨"EXPAND", 0x01000000, 0xFFFE7FFF⟩
  | .compress => ⟨"COMPRESS", 0x02000000, 0xFFFFFFFF⟩
  | .get .single => ⟨"GET.P", 0x03000000, 0xFFFFFFFF⟩
  | .get .pair => ⟨"GET.C", 0x03100000, 0xFFFFFFFF⟩
  | .get (.range _ _ _) => ⟨"GET.R", 0x03200000, 0xFFF1FFFF⟩
  | .get .singleNonInt => ⟨"GET.A3", 0x03300000, 0xFFFFFFFF⟩
  | .get .pairNonInt => ⟨"GET.A4", 0x03400000, 0xFFFFFFFF⟩
  | .get .pairRange => ⟨"GET.A5", 0x03500000, 0xFFFFFFFF⟩
  | .get .ndimOver => ⟨"GET.A6", 0x03600000, 0xFFFFFFFF⟩
  | .get .ndimZero => ⟨"GET.A7", 0x03700000, 0xFFFFFFFF⟩
  | .get .rangeNonInt => ⟨"GET.A8", 0x03800000, 0xFFFFFFFF⟩
  | .set .single _ => ⟨"SET.P", 0x04000000, 0xFFFE7FFF⟩
  | .set .pair _ => ⟨"SET.C", 0x04100000, 0xFFFE7FFF⟩
  | .set (.range _ _ _) .seq => ⟨"SET.RB", 0x04208000, 0xFFF1FFFF⟩
  | .set (.range _ _ _) .seqSeq => ⟨"SET.RL", 0x04210000, 0xFFF1FFFF⟩
  | .set (.range _ _ _) .scalar => ⟨"SET.RX0", 0x04200000, 0xFFF1FFFF⟩
  | .set (.range _ _ _) .nonInt => ⟨"SET.RX3", 0x04218000, 0xFFF1FFFF⟩
  | .set .singleNonInt _ => ⟨"SET.A3", 0x04300000, 0xFFFE7FFF⟩
  | .set .pairNonInt _ => ⟨"SET.A4", 0x04400000, 0xFFFE7FFF⟩
  | .set .pairRange _ => ⟨"SET.A5", 0x04500000, 0xFFFE7FFF⟩
  | .set .ndimOver _ => ⟨"SET.A6", 0x04600000, 0xFFFE7FFF⟩
  | .set .ndimZero _ => ⟨"SET.A7", 0x04700000, 0xFFFE7FFF⟩
  | .set .rangeNonInt _ => ⟨"SET.A8", 0x04800000, 0xFFFE7FFF⟩
  | .count => ⟨"COUNT", 0x05000000, 0xFFFFFFFF⟩
  | .rotate _ => ⟨"ROTATE", 0x06000000, 0xFFFE7FFF⟩
  | .write => ⟨"WRITE", 0x07000000, 0xFFFFFFFF⟩

theorem row_mem_opcodeTable (hd : Header) : hd.row ∈ opcodeTable := by
  have hall : ∀ hd ∈ allHeaders, hd.row ∈ opcodeTable := by decide
  exact hall hd (mem_allHeaders hd)

theorem row_admits (hd : Header) : hd.row.admits (encodeHeader hd) = true := by
  have hall : ∀ hd ∈ allHeaders, hd.row.admits (encodeHeader hd) = true := by decide
  exact hall hd (mem_allHeaders hd)

theorem row_mnemonic (i : Instr) : i.header.row.mnemonic = i.mnemonic := by
  cases i <;> rfl

theorem countP_admits_encodeHeader_le_one (hd : Header) :
    opcodeTable.countP (fun r => r.admits (encodeHeader hd)) ≤ 1 := by
  have hall : ∀ hd ∈ allHeaders, opcodeTable.countP (fun r => r.admits (encodeHeader hd)) ≤ 1 := by decide
  exact hall hd (mem_allHeaders hd)

/-- The bits that a row leaves free are among [19:15]: S, E and T, or VK. -/
theorem mask_getLsbD_or_free : ∀ r ∈ opcodeTable, ∀ k < 32, r.mask.getLsbD k = true ∨ (15 ≤ k ∧ k < 20) := by
  decide

/-- A word that a row admits is the row's match word with some of these five bits. -/
theorem eq_of_admits {r : Row} {w : Word} (hr : r ∈ opcodeTable) (h : r.admits w = true) :
    w = r.matchWord ||| (((w.extractLsb' 15 5).setWidth 32 <<< 15) &&& ~~~r.mask) := by
  rw [Row.admits, beq_iff_eq] at h
  rw [← h]
  refine BitVec.eq_of_getLsbD_eq fun k hk => ?_
  simp only [BitVec.getLsbD_or, BitVec.getLsbD_and, BitVec.getLsbD_not, BitVec.getLsbD_shiftLeft,
    BitVec.getLsbD_setWidth, BitVec.getLsbD_extractLsb']
  cases hm : r.mask.getLsbD k with
  | true => simp
  | false =>
    obtain ⟨hlow, hhigh⟩ := (mask_getLsbD_or_free r hr k hk).resolve_left (by simp [hm])
    have hsum : 15 + (k - 15) = k := by omega
    have hfive : k - 15 < 5 := by omega
    have hword : k - 15 < 32 := by omega
    simp [hk, hlow, hfive, hword, hsum]

theorem match_with_free_bits_legal : ∀ r ∈ opcodeTable, ∀ x : BitVec 5,
    (decodeHeader (r.matchWord ||| ((x.setWidth 32 <<< 15) &&& ~~~r.mask))).isSome = true := by decide

theorem isSome_of_admits {r : Row} {w : Word} (hr : r ∈ opcodeTable) (h : r.admits w = true) :
    (decodeHeader w).isSome = true := by
  rw [eq_of_admits hr h]
  exact match_with_free_bits_legal r hr _

/-- Settles O47: the legal words are those of the 91 headers, each header has its own row, and no row admits another
word. -/
theorem opcodeTableExact : Obligations.OpcodeTableExact := by
  refine ⟨fun w => ⟨fun h => ?row, fun ⟨r, hr, h⟩ => isSome_of_admits hr h⟩, fun w => ?atMostOne,
    fun i => ⟨_, row_mem_opcodeTable i.header, row_mnemonic i, row_admits _⟩, rfl,
    List.Nodup.map encodeHeader_injective (by decide), fun w => ?legal⟩
  case row =>
    obtain ⟨hd, rfl⟩ := (decodeHeader_isSome_iff w).mp h
    exact ⟨_, row_mem_opcodeTable hd, row_admits hd⟩
  case atMostOne =>
    by_cases h : ∃ r ∈ opcodeTable, r.admits w = true
    · obtain ⟨r, hr, hw⟩ := h
      obtain ⟨hd, rfl⟩ := (decodeHeader_isSome_iff w).mp (isSome_of_admits hr hw)
      exact countP_admits_encodeHeader_le_one hd
    · push Not at h
      rw [List.countP_eq_zero.mpr h]
      exact Nat.zero_le 1
  case legal =>
    rw [decodeHeader_isSome_iff, List.mem_map]
    exact ⟨fun ⟨hd, h⟩ => ⟨hd, mem_allHeaders hd, h⟩, fun ⟨hd, _, h⟩ => ⟨hd, h⟩⟩

end Sys2Proof
end

section
/-! PROOFS. What every move keeps (10_state.md sections 1 to 4, 60_exceptions.md section 3): the good state, `N`, the
order of the moves and the one response, each read off the ways in which a move can end (`Ends`, `MoveEnds`). -/

namespace Sys2Proof.Machine

/-! ## The good state -/

theorem State.Inv.emit {s : State} (h : s.Inv) (e : Event) : (s.emit e).Inv := h

theorem State.Inv.transmitted {s : State} (h : s.Inv) (a : TransportAnswer) (txs : List TxsInput) (draws : Nat) :
    (s.transmitted a txs draws).Inv := h

theorem State.Inv.withInputs {s : State} (h : s.Inv) (l : List HostMove) : State.Inv { s with inputs := l } := h

/-- An empty list of entries is canonical, whatever the reset byte. -/
theorem State.inv_of_mem_nil {s : State} (hn : 1 ≤ s.pixelCount) (hm : s.mem = []) : s.Inv := by
  simp [State.Inv, Memory.wf, hn, hm]

theorem State.Inv.refill {s : State} (h : s.Inv) : s.refill.Inv := State.inv_of_mem_nil h.1 rfl

theorem Ends.keeps_inv {s t : State} {o : Out} (h : Ends s o) (ho : o = .next t) (hs : s.Inv) : t.Inv := by
  cases h with
  | reads d => cases ho; exact hs.emit _
  | fails e _ => cases ho; exact hs.emit _
  | writes u hu => cases ho; exact (hu.inv hs).emit _

theorem runMove_keeps_inv {m : HostMove} {s t : State} (hs : s.Inv) (h : runMove m s = .next t) : t.Inv := by
  have hends := runMove_ends m s
  rw [h] at hends
  cases hends with
  | command _ _ _ hcommand => exact hcommand.keeps_inv rfl hs
  | transmits a txs draws _ => exact hs.transmitted a txs draws
  | refills _ => exact hs.refill

/-- Settles O52: a step holds the state or serves one move at the state without it. -/
theorem stepKeepsGoodState : Obligations.StepKeepsGoodState := by
  intro s t hs h
  obtain ⟨-, rfl⟩ | ⟨m, rest, -, hmove⟩ := step_cases h
  · exact hs
  · exact runMove_keeps_inv (hs.withInputs rest) hmove

/-- Settles O53: after construction no entry is listed. -/
theorem resetIsGood : Obligations.ResetIsGood :=
  ⟨fun _ _ hn => State.inv_of_mem_nil hn rfl, State.inv_of_mem_nil (by decide) rfl⟩

/-! ## What stays, and what is emitted -/

/-- A command other than WRITE leaves all but BUF and the trace alone, and appends its response. -/
theorem Ends.frame {s t : State} {o : Out} (h : Ends s o) (ho : o = .next t) :
    ∃ r, t = { s with mem := t.mem, trace := s.trace ++ [.response r] } := by
  cases h with
  | reads d => cases ho; exact ⟨_, rfl⟩
  | fails e _ => cases ho; exact ⟨_, rfl⟩
  | writes u hu => cases ho; exact ⟨_, hu.writesOnly_emit _⟩

/-- What a move keeps, whichever it is. -/
theorem runMove_keeps {m : HostMove} {s t : State} (h : runMove m s = .next t) :
    t.pixelCount = s.pixelCount ∧ t.resetByte = s.resetByte ∧ t.inputs = s.inputs ∧ s.trace <+: t.trace := by
  have hends := runMove_ends m s
  rw [h] at hends
  cases hends with
  | command _ _ _ hcommand =>
    obtain ⟨r, ht⟩ := hcommand.frame rfl
    rw [ht]
    exact ⟨rfl, rfl, rfl, List.prefix_append _ _⟩
  | transmits a txs draws _ => exact ⟨rfl, rfl, rfl, List.prefix_append _ _⟩
  | refills _ => exact ⟨rfl, rfl, rfl, List.prefix_rfl⟩

/-- Settles O39: an idle step changes nothing, and any other serves the oldest move at the state without it. -/
theorem instanceConstant : Obligations.InstanceConstant := by
  intro s t h
  obtain ⟨hidle, rfl⟩ | ⟨m, rest, hinputs, hmove⟩ := step_cases h
  · exact ⟨rfl, rfl, by rw [hidle]; rfl, List.prefix_rfl⟩
  · obtain ⟨hcount, hreset, hrest, htrace⟩ := runMove_keeps hmove
    exact ⟨hcount, hreset, by rw [hrest, hinputs]; rfl, htrace⟩

/-- Settles O38: WRITE emits its Tx before its response, every other command its response alone, and RST nothing. -/
theorem oneResponsePerCommand : Obligations.OneResponsePerCommand := by
  intro m s t h
  have hends := runMove_ends m s
  rw [h] at hends
  cases hends with
  | command _ _ hnot hcommand =>
    obtain ⟨r, ht⟩ := hcommand.frame rfl
    exact ⟨fun _ => ⟨[], r, by rw [ht]; simp, rfl⟩, fun hreset => absurd hreset hnot⟩
  | transmits a txs draws hwrite =>
    refine ⟨fun _ => ⟨[.tx (s.bytes 0 s.length)], answerResponse a, by simp [State.transmitted], rfl⟩, ?_⟩
    rintro rfl
    cases hwrite
  | refills hreset => exact ⟨fun hnot => absurd hreset hnot, fun _ => rfl⟩

/-- An error among what a command emitted is its answer, and a command that answers an error has written nothing. -/
theorem Ends.mem_of_error {s t : State} {o : Out} {e : ErrorKind} (h : Ends s o) (ho : o = .next t)
    (he : .response (.error e) ∈ s.emitted t) : t.mem = s.mem := by
  cases h with
  | reads d => cases ho; rfl
  | fails e _ => cases ho; rfl
  | writes u hu =>
    cases ho
    rw [State.emitted_of_trace (by rw [State.emit_trace, hu.trace]), List.mem_singleton] at he
    cases he

/-- Settles O37: only a command that answers OK, or RST, which answers nothing, has written BUF. -/
theorem errorsWriteNothing : Obligations.ErrorsWriteNothing := by
  intro m s t e h he
  obtain ⟨hcount, hreset, hinputs, -⟩ := runMove_keeps h
  refine ⟨?_, hcount, hreset, hinputs⟩
  have hends := runMove_ends m s
  rw [h] at hends
  cases hends with
  | command _ _ _ hcommand => exact hcommand.mem_of_error rfl he
  | transmits a txs draws _ => rfl
  | refills _ =>
    have hemitted : s.emitted s.refill = [] := State.emitted_of_trace (List.append_nil _).symm
    rw [hemitted] at he
    cases he

/-! ## The bytes outside BUF -/

theorem State.Inv.byteAt_outside {s : State} (h : s.Inv) {a : Nat} (ha : s.length ≤ a) :
    s.byteAt a = s.resetByte.byte := by
  obtain ⟨-, -, hinside, -⟩ := h
  exact Memory.read_of_notMem _ _ _ fun c hc => by have := hinside c hc; omega

theorem runMove_keeps_outside {m : HostMove} {s t : State} (hs : s.Inv) (h : runMove m s = .next t) {a : Nat}
    (ha : s.length ≤ a) : t.byteAt a = s.byteAt a := by
  have hends := runMove_ends m s
  rw [h] at hends
  cases hends with
  | command _ _ _ hcommand =>
    cases hcommand with
    | reads d => rfl
    | fails e _ => rfl
    | writes u hu => exact hu.outside a (.inr ha)
  | transmits a txs draws _ => rfl
  | refills _ => rw [State.refill_byteAt, hs.byteAt_outside ha]

theorem runMove_never_outside (m : HostMove) (s : State) (a : Nat) :
    runMove m s ≠ .fault (.offsetOutsideBuffer a) := by
  intro h
  have hends := runMove_ends m s
  rw [h] at hends
  cases hends with
  | command _ _ _ hcommand => cases hcommand

/-! ## A step as the oldest move -/

theorem step_of_idle {s : State} (hn : 1 ≤ s.pixelCount) (h : s.inputs = []) : step s = .next s := by
  rw [step, serve, if_neg (by omega), h]

/-- The oldest move runs at the state without it. -/
theorem step_of_move {s : State} {m : HostMove} {rest : List HostMove} (hn : 1 ≤ s.pixelCount)
    (h : s.inputs = m :: rest) : step s = runMove m { s with inputs := rest } := by
  rw [step, serve, if_neg (by omega), h]

theorem step_of_no_instance {s : State} (hn : s.pixelCount = 0) : step s = .refused .noInstance := by
  rw [step, serve, if_pos hn]

theorem step_of_command {s : State} {words : List Word} {rest : List HostMove} (hn : 1 ≤ s.pixelCount)
    (hmax : s.pixelCount ≤ Config.maxPixels) (h : s.inputs = .command words :: rest) :
    step s = runCommand words { s with inputs := rest } :=
  (step_of_move hn h).trans (if_pos hmax)

theorem runCommand_of_instr {words : List Word} {i : Instr} (h : decode words = .instr i) (s : State) :
    runCommand words s = exec i s := by
  rw [runCommand, h]

/-- Settles O58: no move writes outside BUF, and none faults for an offset outside it. -/
theorem neverOutsideBuffer : Obligations.NeverOutsideBuffer := by
  intro s hs
  refine ⟨fun t h => ?_, fun a h => ?_⟩
  · obtain ⟨hcount, -, -, -⟩ := instanceConstant s t h
    refine ⟨by rw [State.length, State.length, hcount], rfl, fun a ha => ?_⟩
    obtain ⟨-, rfl⟩ | ⟨m, rest, -, hmove⟩ := step_cases h
    · rfl
    · exact runMove_keeps_outside (hs.withInputs rest) hmove ha
  · obtain ⟨hn, -⟩ := hs
    cases hinputs : s.inputs with
    | nil => rw [step_of_idle hn hinputs] at h; cases h
    | cons m rest => rw [step_of_move hn hinputs] at h; exact runMove_never_outside m _ a h

/-- Settles O44: a legal command and a request run at the state without the move; a command is judged by `N` first. -/
theorem stepRunsDecodedInstruction : Obligations.StepRunsDecodedInstruction := by
  intro s rest hn
  refine ⟨fun words i hmax hinputs hdec => ?_, fun r hinputs => step_of_move hn hinputs, fun words hmax hinputs => ?_⟩
  · rw [step_of_command hn hmax hinputs, runCommand_of_instr hdec]
  · exact (step_of_move hn hinputs).trans (if_neg (Nat.not_le.mpr hmax))

/-- Settles O45: an illegal header alone is a command of one word, and a sequence of another length than its command's
is none (R80, R88). -/
theorem illegalHeaderAnswered : Obligations.IllegalHeaderAnswered := by
  intro s rest hn hmax
  refine ⟨fun w hinputs hw => ?_, fun words hinputs hlen => ?_⟩
  · rw [step_of_command hn hmax hinputs, runCommand, decode_of_illegal hw]
    rfl
  · rw [step_of_command hn hmax hinputs, runCommand]
    rcases decode_of_wrong_length hlen with hdec | hdec <;> rw [hdec]

/-- Settles O56: of the ways a move can end, the silent one is excluded by the transport's answer and the refused one by
legality. -/
theorem everyCommandCompletes : Obligations.EveryCommandCompletes := by
  intro s m rest hn hinputs hlegal hanswers
  rw [step_of_move hn hinputs]
  have hends := runMove_ends m { s with inputs := rest }
  generalize ho : runMove m { s with inputs := rest } = o at hends
  cases hends with
  | command _ _ _ hcommand =>
    cases hcommand with
    | reads d => exact ⟨_, rfl, rfl⟩
    | fails e _ => exact ⟨_, rfl, rfl⟩
    | writes u hu => exact ⟨_, rfl, by rw [State.emit_inputs, hu.frame]⟩
  | transmits a txs draws _ => exact ⟨_, rfl, rfl⟩
  | silent hwrite hsilent => exact absurd (hanswers hwrite) hsilent
  | refills _ => exact ⟨_, rfl, rfl⟩
  | refuses x hillegal => rw [hlegal] at hillegal; cases hillegal

/-! ## Reset and construction -/

/-- Both reset bytes have the bits 6 and 2 of the value 0 (R107). -/
theorem compress_resetByte (rb : ResetByte) : compress ⟨rb.byte, rb.byte, rb.byte, rb.byte⟩ = 0 := by
  cases rb <;> decide

/-- Settles O54: a refilled BUF lists nothing, and what is not listed reads as the reset byte. -/
theorem resetContents : Obligations.ResetContents := by
  refine ⟨fun n rb => ⟨rfl, rfl, fun a => rfl, fun i c => compress_resetByte rb⟩, fun s rest hn hinputs => ?_⟩
  exact ⟨_, step_of_move hn hinputs, fun a => rfl, rfl⟩

/-- Settles O55: the count is judged at construction, `N` and the pending move at a step. -/
theorem idleAndNoInstance : Obligations.IdleAndNoInstance := by
  refine ⟨fun s => step_of_idle, fun count rb h => ?_, fun count rb h => ?_, fun s => step_of_no_instance⟩
  · rw [construct, if_neg (by omega)]
  · exact ⟨State.init count.toNat rb, if_pos h, Int.toNat_of_nonneg h.le, rfl, rfl⟩

end Sys2Proof.Machine
end

section
/-! PROOFS. The two codec commands and the canonical groups (40_codec.md sections 2 and 3). -/

namespace Sys2Proof.Machine

/-! ## Canonical groups -/

theorem canonicalByte_iff (b : Byte) : canonicalByte b = true ↔ ∃ p, b = tableByte p := by
  constructor
  · intro h
    simp only [canonicalByte, Bool.or_eq_true, beq_iff_eq] at h
    rcases h with ((rfl | rfl) | rfl) | rfl
    exacts [⟨0, rfl⟩, ⟨1, rfl⟩, ⟨2, rfl⟩, ⟨3, rfl⟩]
  · rintro ⟨p, rfl⟩
    exact tableByte_canonical p

/-- R101: the value with given pairs expands to their table bytes. -/
theorem expand_append (p0 p1 p2 p3 : BitVec 2) :
    expand (p0 ++ p1 ++ p2 ++ p3) = ⟨tableByte p0, tableByte p1, tableByte p2, tableByte p3⟩ := by
  revert p0 p1 p2 p3
  decide

/-- The canonical groups are the groups of `expand`. -/
theorem canonical_iff_exists_expand (g : Group) : g.canonical = true ↔ ∃ v, g = expand v := by
  constructor
  · intro h
    simp only [Group.canonical, Bool.and_eq_true, canonicalByte_iff] at h
    obtain ⟨⟨⟨⟨p0, h0⟩, p1, h1⟩, p2, h2⟩, p3, h3⟩ := h
    refine ⟨p0 ++ p1 ++ p2 ++ p3, ?_⟩
    rw [expand_append, ← h0, ← h1, ← h2, ← h3]
  · rintro ⟨v, rfl⟩
    exact expand_canonical v

/-- Settles O3: `compress` undoes `expand`, so `expand` undoes `compress` on the groups of `expand` and on no other. -/
theorem expandOfCompressIffCanonical : Obligations.ExpandOfCompressIffCanonical := by
  intro g
  refine ⟨⟨fun h => ?_, fun h => ?_⟩, (canonical_iff_exists_expand g).symm⟩
  · rw [← h]
    exact expand_canonical _
  · obtain ⟨v, rfl⟩ := (canonical_iff_exists_expand g).mp h
    rw [compress_expand]

/-! ## EXPAND -/

theorem tableByte_toNat (p : BitVec 2) : (tableByte p).toNat = tableNumber p.toNat := by
  revert p
  decide

/-- R101 in numbers: the four pairs of a value, most significant first. -/
theorem expand_data (v : Byte) :
    (Payload.group (expand v)).data = [tableNumber (v.toNat / 64), tableNumber (v.toNat / 16 % 4),
      tableNumber (v.toNat / 4 % 4), tableNumber (v.toNat % 4)] := by
  have hv : v.toNat / 64 % 4 = v.toNat / 64 := Nat.mod_eq_of_lt (by omega)
  simp [Payload.data, Group.bytes, expand, tableByte_toNat, Nat.shiftRight_eq_div_pow, hv]

theorem toNat_ofInt_of_channel {v : Int} (h : 0 ≤ v ∧ v ≤ 255) : (BitVec.ofInt 8 v).toNat = v.toNat := by
  rw [BitVec.toNat_ofInt]
  omega

theorem scalarValue_valid {v : Int} (h : 0 ≤ v ∧ v ≤ 255) :
    scalarValue (.scalar (.int v)) = .ok (BitVec.ofInt 8 v) := channelValue_valid h

theorem scalarValue_domain {v : Int} (h : v < 0 ∨ 255 < v) :
    scalarValue (.scalar (.int v)) = .error .valueOutOfDomain := channelValue_invalid (by omega)

/-- R147: what is no integer is no channel value. -/
theorem scalarValue_nonInteger {x : Value} (h : ∀ v : Int, x ≠ .scalar (.int v)) :
    scalarValue x = .error .typeMismatch := by
  match x, h with
  | .scalar (.int v), h => exact absurd rfl (h v)
  | .scalar .nonInt, _ => rfl
  | .seq _, _ => rfl
  | .seqSeq _, _ => rfl

theorem exec_expand (x : Value) (s : State) :
    exec (.expand x) s = andThen s (scalarValue x) fun v => respond (.group (expand v)) s := rfl

/-- Settles O4: the check of a scalar decides, and its value is expanded pair by pair. -/
theorem expandCommand : Obligations.ExpandCommand := by
  intro x s
  refine ⟨?_, ?_, fun h => ?_⟩
  · rintro v rfl h0 h255
    refine ⟨expand (BitVec.ofInt 8 v), ?_, ?_⟩
    · rw [exec_expand, scalarValue_valid ⟨h0, h255⟩]
      rfl
    · rw [expand_data, toNat_ofInt_of_channel ⟨h0, h255⟩]
  · rintro v rfl hv
    rw [exec_expand, scalarValue_domain hv]
    rfl
  · rw [exec_expand, scalarValue_nonInteger h]
    rfl

/-! ## COMPRESS -/

theorem byte_toNat_eq_bits (v : Byte) :
    v.toNat = (v.getLsbD 7).toNat * 128 + (v.getLsbD 6).toNat * 64 + (v.getLsbD 5).toNat * 32 +
      (v.getLsbD 4).toNat * 16 + (v.getLsbD 3).toNat * 8 + (v.getLsbD 2).toNat * 4 + (v.getLsbD 1).toNat * 2 +
      (v.getLsbD 0).toNat := by
  revert v
  decide

/-- Settles O5: each bit of the answer is bit 6 or bit 2 of one byte (R105). -/
theorem compressCommand : Obligations.CompressCommand := by
  intro b0 b1 b2 b3 s
  refine ⟨compress ⟨b0, b1, b2, b3⟩, rfl, ?_⟩
  have high (k : Nat) (hk : k < 4) := compress_getLsbD_high ⟨b0, b1, b2, b3⟩ hk
  have low (k : Nat) (hk : k < 4) := compress_getLsbD_low ⟨b0, b1, b2, b3⟩ hk
  rw [byte_toNat_eq_bits, high 0 (by decide), low 0 (by decide), high 1 (by decide), low 1 (by decide),
    high 2 (by decide), low 2 (by decide), high 3 (by decide), low 3 (by decide)]
  rfl

end Sys2Proof.Machine
end

section
/-! PROOFS. Address resolution class by class, and the pixels of a range (41_index_resolver.md sections 1 to 6). -/

namespace Sys2Proof.Machine

/-! ## The classes of addresses -/

theorem boundNonInt_eq_true {x : Option Comp} (h : boundNonInt x = true) : x = some .nonInt := by
  match x, h with
  | some .nonInt, _ => rfl

/-- A bound that is not NonInt is an integer bound of the binary encoding. -/
theorem boundNonInt_eq_false {x : Option Comp} (h : boundNonInt x = false) : ∃ b, x = boundComp b := by
  match x, h with
  | none, _ => exact ⟨none, rfl⟩
  | some (.int z), _ => exact ⟨some z, rfl⟩

/-- R126: a NonInt bound is a type error, whatever the other bounds. -/
theorem resolve_range_nonInt (n : Nat) {start stop step : Option Comp}
    (h : boundNonInt start = true ∨ boundNonInt stop = true ∨ boundNonInt step = true) :
    resolve n [.rng start stop step] = .error .typeMismatch := by
  rw [resolve, resolveOne]
  cases hstart : boundNonInt start with
  | true => rw [boundNonInt_eq_true hstart]; rfl
  | false =>
    obtain ⟨a, rfl⟩ := boundNonInt_eq_false hstart
    rw [intBound_boundComp]
    cases hstop : boundNonInt stop with
    | true => rw [boundNonInt_eq_true hstop]; rfl
    | false =>
      obtain ⟨b, rfl⟩ := boundNonInt_eq_false hstop
      rw [intBound_boundComp, boundNonInt_eq_true ((h.resolve_left (by simp [hstart])).resolve_left (by simp [hstop]))]
      rfl

theorem resolve_range_badStep (n : Nat) {start stop step : Option Int} (h : ¬stepIsOne step) :
    resolve n (rangeAddr start stop step) = .error .unsupportedOperation := by
  rw [resolve_rangeAddr, resolveRange_badStep h]
  rfl

theorem resolve_range_step (n : Nat) {start stop step : Option Int} (h : stepIsOne step) :
    resolve n (rangeAddr start stop step) =
      .ok (.range (normRange n start stop).1 (normRange n start stop).2) := by
  rw [resolve_rangeAddr, resolveRange_step h]
  rfl

/-- R122: the number of dimensions is judged first. -/
theorem resolve_dimensionality (n : Nat) {addr : Addr} (h : addr.length = 0 ∨ 2 < addr.length) :
    resolve n addr = .error .dimensionality := by
  match addr, h with
  | [], _ => rfl
  | _ :: _ :: _ :: _, _ => rfl
  | [_], h => simp at h
  | [_, _], h => simp at h

/-- R124: a range component of a pair is judged before a NonInt one. -/
theorem resolve_pair_range (n : Nat) {d e : Dim} (h : d.isRange = true ∨ e.isRange = true) :
    resolve n [d, e] = .error .unsupportedOperation := by
  match d, e, h with
  | .rng _ _ _, _, _ => rfl
  | .idx _, .rng _ _ _, _ => rfl
  | .idx _, .idx _, h => simp [Dim.isRange] at h

/-- Settles O8: the four checks of an address, in their order. -/
theorem malformedAddressesRejected : Obligations.MalformedAddressesRejected := by
  intro n addr
  refine ⟨resolve_dimensionality n, fun hlen hrange => ?pair, ?bound, ?step⟩
  case pair =>
    obtain ⟨d, e, rfl⟩ := List.length_eq_two.mp hlen
    exact resolve_pair_range n (by simpa using hrange)
  case bound =>
    rintro start stop step rfl h
    exact resolve_range_nonInt n (h.imp (congrArg boundNonInt) (Or.imp (congrArg boundNonInt) (congrArg boundNonInt)))
  case step =>
    rintro start stop q rfl hq
    exact resolve_range_badStep n fun h => by simp [stepIsOne, hq] at h

theorem resolve_index_outcome (n : Nat) (p : Int) :
    resolve n [.idx (.int p)] = .error .outOfRange ∨ ∃ i, resolve n [.idx (.int p)] = .ok (.single i) := by
  by_cases h : validIndex n p
  · exact .inr ⟨_, resolve_index_valid h⟩
  · exact .inl (resolve_index_invalid h)

theorem resolve_pair_outcome (n : Nat) (p c : Int) :
    resolve n [.idx (.int p), .idx (.int c)] = .error .outOfRange ∨
      ∃ i d, resolve n [.idx (.int p), .idx (.int c)] = .ok (.paired i d) := by
  by_cases h : validIndex n p ∧ 0 ≤ c ∧ c < 3
  · exact .inr ⟨_, _, resolve_pair_valid h.1 h.2⟩
  · exact .inl (resolve_pair_invalid h)

theorem resolve_range_outcome (n : Nat) (start stop step : Option Int) :
    resolve n (rangeAddr start stop step) = .error .unsupportedOperation ∨
      ∃ a b, resolve n (rangeAddr start stop step) = .ok (.range a b) := by
  by_cases h : stepIsOne step
  · exact .inr ⟨_, _, resolve_range_step n h⟩
  · exact .inl (resolve_range_badStep n h)

/-- Settles O9: the shapes of an address, each with the class the table of AK gives it. -/
theorem addressClassOutcome : Obligations.AddressClassOutcome := by
  intro n addr
  match addr with
  | [] => simp [Addr.ak, resolve]
  | [.idx (.int p)] => simpa [Addr.ak] using resolve_index_outcome n p
  | [.idx .nonInt] => simp [Addr.ak, resolve, resolveOne]
  | [.rng start stop step] =>
    by_cases h : boundNonInt start = true ∨ boundNonInt stop = true ∨ boundNonInt step = true
    · have hak : Addr.ak [.rng start stop step] = 8 :=
        if_pos (by simpa only [Bool.or_eq_true, or_assoc] using h)
      simp [hak, resolve_range_nonInt n h]
    · have hak : Addr.ak [.rng start stop step] = 2 :=
        if_neg (by simpa only [Bool.or_eq_true, or_assoc] using h)
      simp only [not_or, Bool.not_eq_true] at h
      obtain ⟨hstart, hstop, hstep⟩ := h
      obtain ⟨a, rfl⟩ := boundNonInt_eq_false hstart
      obtain ⟨b, rfl⟩ := boundNonInt_eq_false hstop
      obtain ⟨c, rfl⟩ := boundNonInt_eq_false hstep
      simpa [hak, rangeAddr] using resolve_range_outcome n a b c
  | [.idx (.int p), .idx (.int c)] => simpa [Addr.ak, Comp.isNonInt] using resolve_pair_outcome n p c
  | [.idx .nonInt, .idx d] => simp [Addr.ak, Comp.isNonInt, resolve_pair_nonInt_left]
  | [.idx (.int p), .idx .nonInt] => simp [Addr.ak, Comp.isNonInt, resolve_pair_nonInt_right]
  | [.rng start stop step, e] => simp [Addr.ak, resolve_pair_range n (d := .rng start stop step) (e := e) (.inl rfl)]
  | [.idx d, .rng start stop step] =>
    simp [Addr.ak, resolve_pair_range n (d := .idx d) (e := .rng start stop step) (.inr rfl)]
  | d :: e :: f :: rest => simp [Addr.ak, resolve_dimensionality n (addr := d :: e :: f :: rest) (.inr (by simp))]

/-- Settles O10: what `resolve` answers is inside, in pixels and so in bytes (R130). -/
theorem resolvedInsideBuffer : Obligations.ResolvedInsideBuffer := by
  intro n addr
  refine ⟨fun i h => ?_, fun i c h => ?_, fun a b h => resolve_ok h⟩
  · have hi : i < n := resolve_ok h
    exact ⟨hi, by rw [soff]; omega⟩
  · obtain ⟨hi, hc⟩ : i < n ∧ c < 3 := resolve_ok h
    exact ⟨hi, hc, goff_bound hi hc⟩

/-! ## The pixels of a range -/

/-- R128: clamping the start bound loses no pixel of the buffer. -/
theorem normBound_start_le_iff {n i : Nat} (hi : i < n) (x : Option Int) :
    normBound n x 0 ≤ i ↔ boundValue n x 0 ≤ i := by
  cases x with
  | none => simp [normBound, boundValue]
  | some z => simp only [normBound, boundValue]; split <;> omega

/-- R128: clamping the stop bound gains no pixel of the buffer. -/
theorem lt_normBound_stop_iff {n i : Nat} (x : Option Int) :
    i < normBound n x n ↔ i < n ∧ (i : Int) < boundValue n x n := by
  cases x with
  | none => simp [normBound, boundValue]
  | some z => simp only [normBound, boundValue]; split <;> omega

theorem mem_normRange_iff (n : Nat) (start stop : Option Int) (i : Nat) :
    (normRange n start stop).1 ≤ i ∧ i < (normRange n start stop).2 ↔
      normBound n start 0 ≤ i ∧ i < normBound n stop n := by
  simp only [normRange]
  split
  · simp only; omega
  · rfl

theorem normRange_iff_inRange (n : Nat) (start stop : Option Int) (i : Nat) :
    (normRange n start stop).1 ≤ i ∧ i < (normRange n start stop).2 ↔ inRange n start stop i := by
  rw [mem_normRange_iff, lt_normBound_stop_iff, inRange]
  constructor
  · rintro ⟨hstart, hi, hstop⟩
    exact ⟨hi, (normBound_start_le_iff hi start).mp hstart, hstop⟩
  · rintro ⟨hi, hstart, hstop⟩
    exact ⟨(normBound_start_le_iff hi start).mpr hstart, hi, hstop⟩

/-- Settles O11: each bound clamped for itself, and reversed bounds address no pixel. -/
theorem rangeAddressesPixels : Obligations.RangeAddressesPixels := by
  intro n start stop
  obtain ⟨hle, hn⟩ := normRange_bounds n start stop
  exact ⟨hle, hn, normRange_iff_inRange n start stop⟩

/-- The pixels of a range, ascending. -/
def rangePixels (n : Nat) (start stop : Option Int) : List Nat :=
  List.range' (normRange n start stop).1 ((normRange n start stop).2 - (normRange n start stop).1)

theorem length_rangePixels (n : Nat) (start stop : Option Int) :
    (rangePixels n start stop).length = (normRange n start stop).2 - (normRange n start stop).1 :=
  List.length_range'

theorem pairwise_rangePixels (n : Nat) (start stop : Option Int) : (rangePixels n start stop).Pairwise (· < ·) :=
  List.pairwise_lt_range'

theorem mem_rangePixels (n : Nat) (start stop : Option Int) (i : Nat) :
    i ∈ rangePixels n start stop ↔ inRange n start stop i := by
  rw [← normRange_iff_inRange, rangePixels, List.mem_range'_1]
  omega

/-- An ascending list of exactly the pixels of a range is the list of its pixels. -/
theorem eq_rangePixels {n : Nat} {start stop : Option Int} {is : List Nat} (hsorted : is.Pairwise (· < ·))
    (hmem : ∀ i, i ∈ is ↔ inRange n start stop i) : is = rangePixels n start stop := by
  have hnodup {l : List Nat} (h : l.Pairwise (· < ·)) : l.Nodup := h.imp Nat.ne_of_lt
  have hperm : is.Perm (rangePixels n start stop) :=
    (List.perm_ext_iff_of_nodup (hnodup hsorted) (hnodup (pairwise_rangePixels n start stop))).mpr fun i => by
      rw [hmem, mem_rangePixels]
  exact hperm.eq_of_pairwise (fun x y _ _ hxy hyx => absurd hxy (Nat.lt_asymm hyx)) hsorted
    (pairwise_rangePixels n start stop)

end Sys2Proof.Machine
end

section
/-! PROOFS. GET, and the commands that end before any value is judged (42_pixel_buffer.md section 1,
41_index_resolver.md section 5, 30_encoding.md R73). -/

namespace Sys2Proof.Machine

/-! ## A command with an address that is wrong -/

section
variable {s : State} {p c : Int} {start stop step : Option Int}

theorem andThen_normIndex_valid (f : Nat → Out) (h : validIndex s.pixelCount p) :
    andThen s (normIndex s.pixelCount p) f = f (pixelOf s.pixelCount p) := by
  rw [normIndex_valid h, andThen_ok]

theorem andThen_normIndex_invalid (f : Nat → Out) (h : ¬validIndex s.pixelCount p) :
    andThen s (normIndex s.pixelCount p) f = raise .outOfRange s := by
  rw [normIndex_invalid h, andThen_error]

theorem andThen_resolvePair_valid (f : Nat × Nat → Out) (hp : validIndex s.pixelCount p) (hc : 0 ≤ c ∧ c < 3) :
    andThen s (resolvePair s.pixelCount p c) f = f (pixelOf s.pixelCount p, c.toNat) := by
  rw [resolvePair_valid hp hc, andThen_ok]

theorem andThen_resolvePair_invalid (f : Nat × Nat → Out) (h : ¬(validIndex s.pixelCount p ∧ 0 ≤ c ∧ c < 3)) :
    andThen s (resolvePair s.pixelCount p c) f = raise .outOfRange s := by
  rw [resolvePair_invalid h, andThen_error]

theorem andThen_resolveRange_step (f : Nat × Nat → Out) (h : stepIsOne step) :
    andThen s (resolveRange s.pixelCount start stop step) f = f (normRange s.pixelCount start stop) := by
  rw [resolveRange_step h, andThen_ok]

theorem andThen_resolveRange_badStep (f : Nat × Nat → Out) (h : ¬stepIsOne step) :
    andThen s (resolveRange s.pixelCount start stop step) f = raise .unsupportedOperation s := by
  rw [resolveRange_badStep h, andThen_error]

end

/-- Settles O15: the step is judged with the address, before the value. -/
theorem stepOtherThanOne : Obligations.StepOtherThanOne := by
  intro start stop step xs es v s h
  exact ⟨andThen_resolveRange_badStep _ h, andThen_resolveRange_badStep _ h, andThen_resolveRange_badStep _ h,
    andThen_resolveRange_badStep _ h, andThen_resolveRange_badStep _ h⟩

/-- Settles O16: each of these commands is its error. -/
theorem addressErrorForms : Obligations.AddressErrorForms :=
  fun _ _ => ⟨rfl, rfl, rfl, rfl, rfl, rfl, rfl, rfl, rfl, rfl, rfl, rfl⟩

/-- Settles O24: once the step is 1, the value's kind is wrong whatever the value. -/
theorem rangeScalarIsShapeMismatch : Obligations.RangeScalarIsShapeMismatch :=
  fun _ _ _ _ _ h => ⟨andThen_resolveRange_step _ h, andThen_resolveRange_step _ h⟩

/-! ## GET -/

theorem exec_getP_valid {p : Int} {s : State} (h : validIndex s.pixelCount p) :
    exec (.getP p) s = .next (s.emit (.response (.ok (.values (s.pixel (pixelOf s.pixelCount p)))))) := by
  refine (andThen_normIndex_valid _ h).trans ?_
  rw [getSingle, State.readPixel_ok (pixelOf_lt h)]
  rfl

theorem exec_getC_valid {p c : Int} {s : State} (hp : validIndex s.pixelCount p) (hc : 0 ≤ c ∧ c < 3) :
    exec (.getC p c) s =
      .next (s.emit (.response (.ok (.values [s.cell (pixelOf s.pixelCount p) c.toNat])))) := by
  refine (andThen_resolvePair_valid _ hp hc).trans ?_
  rw [getPaired, State.readCell_ok (pixelOf_lt hp) (by omega)]
  rfl

theorem exec_getR_step {start stop step : Option Int} {s : State} (h : stepIsOne step) :
    exec (.getR start stop step) s = .next (s.emit (.response (.ok (.values
      (s.pixels (normRange s.pixelCount start stop).1
        ((normRange s.pixelCount start stop).2 - (normRange s.pixelCount start stop).1)))))) := by
  obtain ⟨hle, hn⟩ := normRange_bounds s.pixelCount start stop
  refine (andThen_resolveRange_step _ h).trans ?_
  rw [getRange, State.readPixels_ok (by omega)]
  rfl

/-- Settles O12: the index decides between the pixel's cells and the error. -/
theorem getPixelReads : Obligations.GetPixelReads :=
  fun _ _ => ⟨exec_getP_valid, andThen_normIndex_invalid _⟩

/-- Settles O13: the pair decides between the cell and the error. -/
theorem getChannelReads : Obligations.GetChannelReads :=
  fun _ _ _ => ⟨fun hp h0 h3 => exec_getC_valid hp ⟨h0, h3⟩, andThen_resolvePair_invalid _⟩

/-- The cells of consecutive pixels, by the pixels' numbers. -/
theorem State.pixels_eq_flatMap (s : State) (a k : Nat) : s.pixels a k = (List.range' a k).flatMap s.pixel := by
  rw [State.pixels, List.range'_eq_map_range, List.flatMap_map]

/-- Settles O14: the pixels read are `rangePixels`. -/
theorem getRangeReads : Obligations.GetRangeReads := by
  intro start stop step s h
  refine ⟨rangePixels s.pixelCount start stop, pairwise_rangePixels _ _ _, mem_rangePixels _ _ _, ?_⟩
  rw [exec_getR_step h, State.pixels_eq_flatMap]
  rfl

end Sys2Proof.Machine
end

section
/-! PROOFS. SET: what is wrong with a value, what a good value writes, and what a GET reads afterwards
(42_pixel_buffer.md sections 2 to 4). -/

namespace Sys2Proof.Machine

/-! ## The checks of a value -/

theorem channelValue_of_error {x : Comp} {e : ErrorKind} (h : componentError x = some e) :
    channelValue x = .error e := by
  cases x with
  | nonInt => cases h; rfl
  | int v =>
    rw [componentError] at h
    split at h
    · cases h
    next hv => cases h; exact channelValue_invalid hv

theorem channelValue_of_no_error {x : Comp} (h : componentError x = none) : ∃ b, channelValue x = .ok b := by
  cases x with
  | nonInt => cases h
  | int v =>
    rw [componentError] at h
    split at h
    next hv => exact ⟨_, channelValue_valid hv⟩
    · cases h

theorem channelValue_toNat (b : Byte) : channelValue (.int b.toNat) = .ok b := by
  have hb : (0 : Int) ≤ b.toNat ∧ (b.toNat : Int) ≤ 255 := by omega
  rw [channelValue_valid hb, BitVec.ofInt_natCast, BitVec.ofNat_toNat, BitVec.setWidth_eq]

/-- R144: a sequence of another length, whatever its components. -/
theorem checkTriple_of_length {xs : List Comp} (h : xs.length ≠ 3) : checkTriple xs = .error .shapeMismatch := by
  match xs, h with
  | [], _ => rfl
  | [_], _ => rfl
  | [_, _], _ => rfl
  | [_, _, _], h => exact absurd rfl h
  | _ :: _ :: _ :: _ :: _, _ => rfl

/-- R144: the first component that is wrong decides, and three good ones make a triple. -/
theorem checkTriple_three (x y z : Comp) :
    (∀ e, [x, y, z].findSome? componentError = some e → checkTriple [x, y, z] = .error e) ∧
      ([x, y, z].findSome? componentError = none → ∃ v, checkTriple [x, y, z] = .ok v) := by
  rw [checkTriple]
  simp only [List.findSome?_cons, List.findSome?_nil]
  cases hx : componentError x with
  | some e => rw [channelValue_of_error hx]; exact ⟨fun e' he => by cases he; rfl, fun hnone => by cases hnone⟩
  | none =>
    obtain ⟨b0, h0⟩ := channelValue_of_no_error hx
    rw [h0]
    cases hy : componentError y with
    | some e => rw [channelValue_of_error hy]; exact ⟨fun e' he => by cases he; rfl, fun hnone => by cases hnone⟩
    | none =>
      obtain ⟨b1, h1⟩ := channelValue_of_no_error hy
      rw [h1]
      cases hz : componentError z with
      | some e => rw [channelValue_of_error hz]; exact ⟨fun e' he => by cases he; rfl, fun hnone => by cases hnone⟩
      | none =>
        obtain ⟨b2, h2⟩ := channelValue_of_no_error hz
        rw [h2]
        exact ⟨fun e he => by simp at he, fun _ => ⟨_, rfl⟩⟩

theorem checkTriple_of_error {xs : List Comp} {e : ErrorKind} (h : tripleError xs = some e) :
    checkTriple xs = .error e := by
  rw [tripleError] at h
  split at h
  next hlen =>
    obtain ⟨x, y, z, rfl⟩ := List.length_eq_three.mp hlen
    exact (checkTriple_three x y z).1 e h
  next hlen => cases h; exact checkTriple_of_length hlen

theorem checkTriple_of_no_error {xs : List Comp} (h : tripleError xs = none) : ∃ v, checkTriple xs = .ok v := by
  rw [tripleError] at h
  split at h
  next hlen =>
    obtain ⟨x, y, z, rfl⟩ := List.length_eq_three.mp hlen
    exact (checkTriple_three x y z).2 h
  · cases h

/-- R153: the first element that is wrong decides. -/
theorem checkTriples_of_error {es : List (List Comp)} {e : ErrorKind} (h : es.findSome? tripleError = some e) :
    checkTriples es = .error e := by
  induction es with
  | nil => cases h
  | cons x es ih =>
    rw [List.findSome?_cons] at h
    rw [checkTriples]
    cases hx : tripleError x with
    | some e' => rw [hx] at h; cases h; rw [checkTriple_of_error hx]; rfl
    | none =>
      rw [hx] at h
      obtain ⟨v, hv⟩ := checkTriple_of_no_error hx
      rw [hv]
      change (checkTriples es >>= _) = _
      rw [ih h]
      rfl

@[simp] theorem checkTriple_comps (v : Triple) : checkTriple v.comps = .ok v := by
  rw [Triple.comps, checkTriple, channelValue_toNat, channelValue_toNat, channelValue_toNat]
  rfl

@[simp] theorem checkTriples_map_comps (vs : List Triple) : checkTriples (vs.map Triple.comps) = .ok vs := by
  induction vs with
  | nil => rfl
  | cons v vs ih =>
    rw [List.map_cons, checkTriples, checkTriple_comps]
    change (checkTriples (vs.map Triple.comps) >>= _) = _
    rw [ih]
    rfl

/-! ## The errors of a value -/

theorem exec_setP_valid {p : Int} {s : State} (v : Value) (h : validIndex s.pixelCount p) :
    exec (.setP p v) s = setSingle (pixelOf s.pixelCount p) v s := andThen_normIndex_valid _ h

theorem exec_setC_valid {p c : Int} {s : State} (v : Value) (hp : validIndex s.pixelCount p) (hc : 0 ≤ c ∧ c < 3) :
    exec (.setC p c v) s = setPaired (pixelOf s.pixelCount p) c.toNat v s := andThen_resolvePair_valid _ hp hc

theorem exec_setRB_step {start stop step : Option Int} (xs : List Comp) (s : State) (h : stepIsOne step) :
    exec (.setRB start stop step xs) s =
      setBroadcast (normRange s.pixelCount start stop).1 (normRange s.pixelCount start stop).2 xs s :=
  andThen_resolveRange_step _ h

theorem exec_setRL_step {start stop step : Option Int} (es : List (List Comp)) (s : State) (h : stepIsOne step) :
    exec (.setRL start stop step es) s =
      setList (normRange s.pixelCount start stop).1 (normRange s.pixelCount start stop).2 es s :=
  andThen_resolveRange_step _ h

/-- Settles O18: the index is judged first; then only a sequence can be a triple; then the triple's own error. -/
theorem setPixelErrors : Obligations.SetPixelErrors := by
  intro p v s
  refine ⟨andThen_normIndex_invalid _, fun hp hv => ?kind, ?triple⟩
  case kind =>
    rw [exec_setP_valid v hp]
    cases v with
    | seq xs => exact absurd rfl (hv xs)
    | scalar c => rfl
    | seqSeq es => rfl
  case triple =>
    rintro xs e hp rfl he
    rw [exec_setP_valid _ hp, setSingle, checkTriple_of_error he]
    rfl

/-- Settles O20: the pair is judged first, then the scalar (R147). -/
theorem setChannelErrors : Obligations.SetChannelErrors := by
  intro p c v s
  refine ⟨andThen_resolvePair_invalid _, fun hp h0 h3 hv => ?kind, ?domain⟩
  case kind =>
    rw [exec_setC_valid v hp ⟨h0, h3⟩, setPaired, scalarValue_nonInteger hv]
    rfl
  case domain =>
    rintro z hp h0 h3 rfl hz
    rw [exec_setC_valid _ hp ⟨h0, h3⟩, setPaired, scalarValue_domain hz]
    rfl

/-- Settles O23: a broadcast's triple is judged before the range is looked at, a list's length before its elements. -/
theorem rangeValueErrors : Obligations.RangeValueErrors := by
  intro start stop step xs es e is s hstep hsorted hmem
  have hlen : is.length = (normRange s.pixelCount start stop).2 - (normRange s.pixelCount start stop).1 := by
    rw [eq_rangePixels hsorted hmem, length_rangePixels]
  rw [hlen, exec_setRB_step xs s hstep, exec_setRL_step es s hstep, setBroadcast, setList]
  refine ⟨fun he => ?_, fun hne => ?_, fun heq he => ?_⟩
  · rw [checkTriple_of_error he]
    rfl
  · rw [if_pos hne]
    rfl
  · rw [if_neg (not_not.mpr heq), checkTriples_of_error he]
    rfl

/-! ## What a good value writes -/

theorem exec_setP_writes {p : Int} {xs : List Comp} {v : Triple} {s : State} (hp : validIndex s.pixelCount p)
    (hv : checkTriple xs = .ok v) :
    ∃ t, exec (.setP p (.seq xs)) s = .next (t.emit (.response (.ok .empty))) ∧
      s.Wrote t (soff (pixelOf s.pixelCount p)) (soff (pixelOf s.pixelCount p) + 12) ∧
      t.holdsTriple (pixelOf s.pixelCount p) v := by
  obtain ⟨t, hwrite, hwrote, hholds⟩ := State.writePixel_spec (s := s) v (pixelOf_lt hp)
  refine ⟨t, ?_, hwrote, hholds⟩
  rw [exec_setP_valid _ hp, setSingle, hv, andThen_ok, hwrite]
  rfl

theorem exec_setC_writes {p c : Int} {x : Value} {b : Byte} {s : State} (hp : validIndex s.pixelCount p)
    (hc : 0 ≤ c ∧ c < 3) (hb : scalarValue x = .ok b) :
    ∃ t, exec (.setC p c x) s = .next (t.emit (.response (.ok .empty))) ∧
      s.Wrote t (goff (pixelOf s.pixelCount p) c.toNat) (goff (pixelOf s.pixelCount p) c.toNat + 4) ∧
      t.groupAt (goff (pixelOf s.pixelCount p) c.toNat) = expand b := by
  obtain ⟨t, hwrite, hwrote, hgroup⟩ := State.writeCell_spec (s := s) (c := c.toNat) b (pixelOf_lt hp) (by omega)
  refine ⟨t, ?_, hwrote, hgroup⟩
  rw [exec_setC_valid _ hp hc, setPaired, hb, andThen_ok, hwrite]
  rfl

/-- `t` is `s` with the triple `v` in the slots of the pixels from `a` up to `b`. -/
structure State.Broadcast (s t : State) (a b : Nat) (v : Triple) : Prop where
  wrote : s.Wrote t (soff a) (soff b)
  holds : ∀ i, a ≤ i → i < b → t.holdsTriple i v
  empty : a = b → t = s

theorem exec_setRB_writes {start stop step : Option Int} {xs : List Comp} {v : Triple} {s : State}
    (hstep : stepIsOne step) (hv : checkTriple xs = .ok v) :
    ∃ t, exec (.setRB start stop step xs) s = .next (t.emit (.response (.ok .empty))) ∧
      s.Broadcast t (normRange s.pixelCount start stop).1 (normRange s.pixelCount start stop).2 v := by
  obtain ⟨hle, hn⟩ := normRange_bounds s.pixelCount start stop
  rw [exec_setRB_step xs s hstep, setBroadcast, hv, andThen_ok]
  rcases Nat.eq_or_lt_of_le hle with heq | hlt
  · rw [if_pos heq]
    exact ⟨s, rfl, .refl _ _ _, fun i h1 h2 => by omega, fun _ => rfl⟩
  · obtain ⟨t, hwrite, hwrote, hholds⟩ := State.broadcast_spec v hlt hn
    rw [if_neg hlt.ne, hwrite]
    exact ⟨t, rfl, hwrote, hholds, fun heq => absurd heq hlt.ne⟩

/-- `t` is `s` with the triples `vs` in the slots of the pixels from `a` on. -/
structure State.Listed (s t : State) (a : Nat) (vs : List Triple) : Prop where
  wrote : s.Wrote t (soff a) (soff (a + vs.length))
  holds : ∀ k (hk : k < vs.length), t.holdsTriple (a + k) vs[k]

theorem exec_setRL_writes {start stop step : Option Int} {es : List (List Comp)} {vs : List Triple} {s : State}
    (hstep : stepIsOne step)
    (hlen : es.length = (normRange s.pixelCount start stop).2 - (normRange s.pixelCount start stop).1)
    (hvs : checkTriples es = .ok vs) :
    ∃ t, exec (.setRL start stop step es) s = .next (t.emit (.response (.ok .empty))) ∧
      s.Listed t (normRange s.pixelCount start stop).1 vs := by
  obtain ⟨hle, hn⟩ := normRange_bounds s.pixelCount start stop
  have hvslen := checkTriples_length hvs
  obtain ⟨t, hwrite, hwrote, hholds⟩ := State.writePixels_spec vs (s := s)
    (i := (normRange s.pixelCount start stop).1) (by omega)
  rw [exec_setRL_step es s hstep, setList, if_neg (not_not.mpr hlen), hvs, andThen_ok, hwrite]
  exact ⟨t, rfl, hwrote, hholds⟩

/-- A byte in no slot of the pixels from `a` up to `b` is outside what was written there. -/
theorem State.Wrote.byteAt_in_no_slot {s t : State} {a b x : Nat} (h : s.Wrote t (soff a) (soff b))
    (hx : ∀ i, a ≤ i → i < b → x < 12 * i ∨ 12 * i + 12 ≤ x) : t.byteAt x = s.byteAt x := by
  refine h.outside x ?_
  by_contra hin
  rw [soff, soff] at hin
  have hslot := hx (x / 12) (by omega) (by omega)
  omega

/-- Settles O17: the specification of the slot's write, for a valid index and a triple of bytes. -/
theorem setPixelWrites : Obligations.SetPixelWrites := by
  intro p v s hp
  obtain ⟨t, hexec, hwrote, hholds⟩ := exec_setP_writes hp (checkTriple_comps v)
  exact ⟨_, hexec, hwrote.writesOnly_emit _, hholds, hwrote.outside⟩

/-- Settles O19: the specification of the group's write, for a valid pair and a byte. -/
theorem setChannelWrites : Obligations.SetChannelWrites := by
  intro p c v s hp h0 h3
  obtain ⟨t, hexec, hwrote, hgroup⟩ := exec_setC_writes (x := .scalar (.int v.toNat)) hp ⟨h0, h3⟩ (channelValue_toNat v)
  exact ⟨_, hexec, hwrote.writesOnly_emit _, hgroup, hwrote.outside⟩

/-- Settles O21: the broadcast's specification, with the pixels of the range between its normalised bounds. -/
theorem setBroadcastWrites : Obligations.SetBroadcastWrites := by
  intro start stop step v s hstep
  obtain ⟨t, hexec, hwrote, hholds, hempty⟩ := exec_setRB_writes (start := start) (stop := stop) (s := s) hstep
    (checkTriple_comps v)
  refine ⟨_, hexec, hwrote.writesOnly_emit _, fun i hi => ?_, fun x hx => ?_, fun hnone => ?_⟩
  · obtain ⟨h1, h2⟩ := (normRange_iff_inRange _ _ _ _).mpr hi
    exact hholds i h1 h2
  · exact hwrote.byteAt_in_no_slot fun i h1 h2 => hx i ((normRange_iff_inRange _ _ _ _).mp ⟨h1, h2⟩)
  · obtain ⟨hle, -⟩ := normRange_bounds s.pixelCount start stop
    have hnot := mt (normRange_iff_inRange _ _ _ _).mp (hnone (normRange s.pixelCount start stop).1)
    rw [State.emit_mem, hempty (by omega)]

/-- Settles O22: the list's specification, with the pixels of the range numbered from its start. -/
theorem setListWrites : Obligations.SetListWrites := by
  intro start stop step vs is s hstep hsorted hmem hlen
  obtain ⟨hle, -⟩ := normRange_bounds s.pixelCount start stop
  obtain rfl := eq_rangePixels hsorted hmem
  rw [length_rangePixels] at hlen
  obtain ⟨t, hexec, hwrote, hholds⟩ := exec_setRL_writes (start := start) (stop := stop) (s := s) hstep
    (by rwa [List.length_map]) (checkTriples_map_comps vs)
  refine ⟨_, hexec, hwrote.writesOnly_emit _, fun iv hiv => ?_, fun x hx => ?_⟩
  · obtain ⟨k, hk, rfl⟩ := List.mem_iff_getElem.mp hiv
    rw [List.length_zip, lt_min_iff] at hk
    have hpixel : (rangePixels s.pixelCount start stop)[k] = (normRange s.pixelCount start stop).1 + k := by
      simp [rangePixels]
    rw [List.getElem_zip, hpixel]
    exact hholds k hk.2
  · refine hwrote.byteAt_in_no_slot fun i h1 h2 => hx i ?_
    rw [mem_rangePixels, ← normRange_iff_inRange]
    omega

/-! ## Reading back -/

theorem State.cell_of_holdsTriple {s : State} {i c : Nat} {v : Triple} (h : s.holdsTriple i v) (hc : c < 3) :
    s.cell i c = v.channel c := by
  rw [State.cell, h c hc, compress_expand]

theorem State.pixel_of_holdsTriple {s : State} {i : Nat} {v : Triple} (h : s.holdsTriple i v) :
    s.pixel i = v.values := by
  rw [State.pixel, State.cell_of_holdsTriple h (by decide), State.cell_of_holdsTriple h (by decide),
    State.cell_of_holdsTriple h (by decide)]
  rfl

theorem State.Wrote.cell {s t : State} {lo hi i c : Nat} (h : s.Wrote t lo hi)
    (hout : goff i c + 4 ≤ lo ∨ hi ≤ goff i c) : t.cell i c = s.cell i c := by
  rw [State.cell, State.cell, h.groupAt hout]

theorem State.Wrote.pixel {s t : State} {lo hi i : Nat} (h : s.Wrote t lo hi)
    (hout : soff i + 12 ≤ lo ∨ hi ≤ soff i) : t.pixel i = s.pixel i := by
  have hcell (c : Nat) (hc : c < 3) : t.cell i c = s.cell i c := h.cell (by rw [goff]; rw [soff] at hout; omega)
  rw [State.pixel, State.pixel, hcell 0 (by decide), hcell 1 (by decide), hcell 2 (by decide)]

/-- The cells of consecutive pixels that hold triples are the triples' values. -/
theorem State.pixels_of_holds {s : State} {a : Nat} {vs : List Triple}
    (h : ∀ k (hk : k < vs.length), s.holdsTriple (a + k) vs[k]) :
    s.pixels a vs.length = vs.flatMap Triple.values := by
  rw [State.pixels, List.flatMap_def, List.flatMap_def]
  refine congrArg List.flatten (List.ext_getElem (by simp) fun k h1 h2 => ?_)
  have hk : k < vs.length := by simpa using h2
  simp [State.pixel_of_holdsTriple (h k hk)]

/-- GET.P at a state that a SET has left. -/
theorem exec_getP_after {p : Int} {s t : State} {lo hi : Nat} (h : s.Wrote t lo hi) (e : Event)
    (hp : validIndex s.pixelCount p) :
    exec (.getP p) (t.emit e) =
      .next ((t.emit e).emit (.response (.ok (.values (t.pixel (pixelOf s.pixelCount p)))))) := by
  rw [← h.pixelCount] at hp ⊢
  exact exec_getP_valid (s := t.emit e) hp

theorem exec_getC_after {p c : Int} {s t : State} {lo hi : Nat} (h : s.Wrote t lo hi) (e : Event)
    (hp : validIndex s.pixelCount p) (hc : 0 ≤ c ∧ c < 3) :
    exec (.getC p c) (t.emit e) =
      .next ((t.emit e).emit (.response (.ok (.values [t.cell (pixelOf s.pixelCount p) c.toNat])))) := by
  rw [← h.pixelCount] at hp ⊢
  exact exec_getC_valid (s := t.emit e) hp hc

theorem exec_getR_after {start stop step : Option Int} {s t : State} {lo hi : Nat} (h : s.Wrote t lo hi) (e : Event)
    (hstep : stepIsOne step) :
    exec (.getR start stop step) (t.emit e) = .next ((t.emit e).emit (.response (.ok (.values
      (t.pixels (normRange s.pixelCount start stop).1
        ((normRange s.pixelCount start stop).2 - (normRange s.pixelCount start stop).1)))))) := by
  rw [← h.pixelCount]
  exact exec_getR_step (s := t.emit e) hstep

/-- Settles O25: the pixel's slot holds the triple, and another pixel's slot lies outside it. -/
theorem pixelReadBack : Obligations.PixelReadBack := by
  intro p q v s hp hq
  obtain ⟨t, hexec, hwrote, hholds⟩ := exec_setP_writes hp (checkTriple_comps v)
  refine ⟨_, hexec, ?_, fun hne => ⟨_, exec_getP_valid hq, ?_⟩⟩
  · rw [exec_getP_after hwrote _ hp, State.pixel_of_holdsTriple hholds]
    rfl
  · rw [exec_getP_after hwrote _ hq, hwrote.pixel (by rw [soff, soff]; omega)]

/-- Settles O26: the cell's group holds the value, and every other group lies outside it. -/
theorem channelReadBack : Obligations.ChannelReadBack := by
  intro p c v s hp h0 h3
  obtain ⟨t, hexec, hwrote, hgroup⟩ := exec_setC_writes (x := .scalar (.int v.toNat)) hp ⟨h0, h3⟩ (channelValue_toNat v)
  refine ⟨_, hexec, ?same, fun d hd0 hd3 hne => ⟨_, exec_getC_valid hp ⟨hd0, hd3⟩, ?other⟩, fun i k hk hout => ?byte⟩
  case same =>
    rw [exec_getC_after hwrote _ hp ⟨h0, h3⟩, State.cell, hgroup, compress_expand]
  case other =>
    rw [exec_getC_after hwrote _ hp ⟨hd0, hd3⟩, hwrote.cell (by rw [goff, goff]; omega)]
  case byte =>
    exact hwrote.outside _ (by rw [goff]; omega)

/-- Settles O27: the broadcast's specification, and the range read back from the slots it wrote. -/
theorem broadcastReadBack : Obligations.BroadcastReadBack := by
  intro start stop step v s hstep
  obtain ⟨t, hexec, hwrote, hholds, -⟩ := exec_setRB_writes (start := start) (stop := stop) (s := s) hstep
    (checkTriple_comps v)
  refine ⟨_, _, hexec, hwrote.writesOnly_emit _, fun i hi c hc => ?groups, fun x hx => ?outside, ?read, rfl⟩
  case groups =>
    obtain ⟨h1, h2⟩ := (normRange_iff_inRange _ _ _ _).mpr hi
    exact hholds i h1 h2 c hc
  case outside =>
    exact hwrote.byteAt_in_no_slot fun i h1 h2 => hx i ((normRange_iff_inRange _ _ _ _).mp ⟨h1, h2⟩)
  case read =>
    have hread := State.pixels_of_holds (s := t) (a := (normRange s.pixelCount start stop).1)
      (vs := List.replicate ((normRange s.pixelCount start stop).2 - (normRange s.pixelCount start stop).1) v)
      fun k hk => by
        rw [List.length_replicate] at hk
        rw [List.getElem_replicate]
        exact hholds _ (by omega) (by omega)
    rw [List.length_replicate, List.flatMap_def, List.map_replicate] at hread
    rw [exec_getR_after hwrote _ hstep, hread]
    rfl

/-- Settles O28: the slots that were written hold the list's triples in order. -/
theorem listReadBack : Obligations.ListReadBack := by
  intro start stop step vs s hstep hlen
  obtain ⟨t, hexec, hwrote, hholds⟩ := exec_setRL_writes (start := start) (stop := stop) (s := s) hstep
    (by rwa [List.length_map]) (checkTriples_map_comps vs)
  refine ⟨_, hexec, ?_⟩
  rw [exec_getR_after hwrote _ hstep, ← hlen, State.pixels_of_holds hholds]
  rfl

end Sys2Proof.Machine
end

section
/-! PROOFS. The laws of the rotation and its three-step form (43_rotator.md sections 1 and 2). Canonical buffers are
equal when their bytes are, and `State.rotated_spec` says where each byte goes. -/

namespace Sys2Proof.Machine

/-! ## Equality of buffers -/

theorem State.mem_eq_of_byteAt {t u : State} (ht : t.Inv) (hu : u.Inv) (hr : u.resetByte = t.resetByte)
    (h : ∀ a, t.byteAt a = u.byteAt a) : t.mem = u.mem := by
  obtain ⟨-, htwf, -⟩ := ht
  obtain ⟨-, huwf, -⟩ := hu
  rw [hr] at huwf
  refine Memory.wf_ext htwf huwf fun a => ?_
  rw [← State.byteAt, h, State.byteAt, hr]

/-- Two writings of one span that leave the same bytes in it leave the same buffer. -/
theorem State.Wrote.mem_eq {s t u : State} {lo hi : Nat} (ht : s.Wrote t lo hi) (hu : s.Wrote u lo hi) (hs : s.Inv)
    (h : ∀ a, lo ≤ a → a < hi → t.byteAt a = u.byteAt a) : t.mem = u.mem := by
  refine State.mem_eq_of_byteAt (ht.inv hs) (hu.inv hs) (hu.resetByte.trans ht.resetByte.symm) fun a => ?_
  by_cases ha : lo ≤ a ∧ a < hi
  · exact h a ha.1 ha.2
  · rw [ht.outside a (by omega), hu.outside a (by omega)]

theorem State.Wrote.eq_of_mem_eq {s t u : State} {lo hi lo' hi' : Nat} (ht : s.Wrote t lo hi)
    (hu : s.Wrote u lo' hi') (h : t.mem = u.mem) : t = u := by
  rw [ht.frame, hu.frame, h]

/-! ## The counts -/

theorem rotateCount_add {n : Nat} (h : 1 ≤ n) (j k : Int) :
    rotateCount n (j + k) = (rotateCount n j + rotateCount n k) % n := by
  zify
  rw [natCast_rotateCount h, natCast_rotateCount h, natCast_rotateCount h, Int.emod_add_emod, Int.add_emod_emod]

theorem rotateCount_emod (n : Nat) (k : Int) : rotateCount n (k % n) = rotateCount n k :=
  congrArg Int.toNat (Int.emod_emod_of_dvd k dvd_rfl)

theorem rotateCount_mul (n : Nat) (m : Int) : rotateCount n (m * n) = 0 :=
  congrArg Int.toNat (Int.mul_emod_left m n)

theorem State.rotated_congr (s : State) {j k : Int} (h : rotateCount s.pixelCount j = rotateCount s.pixelCount k) :
    s.rotated j = s.rotated k := by
  rw [State.rotated, State.rotated, h]

/-- R173: a count that is no rotation writes nothing. -/
theorem State.rotated_of_count_zero (s : State) {k : Int} (h : rotateCount s.pixelCount k = 0) : s.rotated k = s := by
  rw [State.rotated, h]
  rfl

/-! ## Composition -/

/-- The places of two rotations one after the other are the places of their sum. -/
theorem rotate_place_add {n : Nat} (h : 1 ≤ n) (p : Nat) (j k : Int) :
    ((p + 12 * rotateCount n j) % (12 * n) + 12 * rotateCount n k) % (12 * n) =
      (p + 12 * rotateCount n (j + k)) % (12 * n) := by
  rw [rotateCount_add h, ← Nat.mul_mod_mul_left, Nat.add_mod_mod, Nat.mod_add_mod, Nat.mul_add, Nat.add_assoc]

theorem State.rotated_rotated_mem {s : State} (hs : s.Inv) (j k : Int) :
    ((s.rotated j).rotated k).mem = (s.rotated (j + k)).mem := by
  have hn : 1 ≤ s.pixelCount := hs.1
  obtain ⟨hwrote1, hplace1⟩ := s.rotated_spec j
  obtain ⟨hwrote2, hplace2⟩ := (s.rotated j).rotated_spec k
  obtain ⟨hwrote, hplace⟩ := s.rotated_spec (j + k)
  rw [hwrote1.length] at hwrote2
  rw [hwrote1.length, hwrote1.pixelCount] at hplace2
  refine ((hwrote1.trans hwrote2).mono (by simp) (by simp)).mem_eq hwrote hs fun q _ hq => ?_
  obtain ⟨hp, hpq⟩ := rotate_source (12 * rotateCount s.pixelCount (j + k)) hq
  generalize (((q : Int) - (12 * rotateCount s.pixelCount (j + k) : Nat)) % s.length).toNat = p at hp hpq
  have htwo := hplace2 _ (Nat.mod_lt (p + 12 * rotateCount s.pixelCount j) (by omega))
  have hone := hplace p hp
  rw [State.length, rotate_place_add hn, ← State.length, hpq, hplace1 p hp] at htwo
  rw [hpq] at hone
  rw [htwo, hone]

/-! ## Uniform content -/

theorem State.groupAt_eq_of_bytes {s t : State} {a b : Nat} (h : ∀ k < 4, t.byteAt (a + k) = s.byteAt (b + k)) :
    t.groupAt a = s.groupAt b := by
  have h0 := h 0 (by decide)
  simp only [Nat.add_zero] at h0
  rw [State.groupAt, h0, h 1 (by decide), h 2 (by decide), h 3 (by decide), State.groupAt]

/-- The pixel that comes to stand at `i`. -/
theorem exists_pixel_moved_to {n i : Nat} (hi : i < n) (k : Int) :
    ∃ j < n, (((j : Int) + k) % n).toNat = i := by
  obtain ⟨hlt, hplace⟩ := rotate_source (rotateCount n k) hi
  exact ⟨_, hlt, by rw [toNat_add_emod_eq_rotateCount (by omega), hplace]⟩

theorem State.rotated_holdsTriple {s : State} {v : Triple} (h : ∀ i < s.pixelCount, s.holdsTriple i v) (k : Int)
    {i : Nat} (hi : i < s.pixelCount) : (s.rotated k).holdsTriple i v := by
  intro c hc
  obtain ⟨j, hj, rfl⟩ := exists_pixel_moved_to hi k
  rw [← h j hj c hc]
  refine State.groupAt_eq_of_bytes fun m hm => ?_
  have hbyte := s.rotated_slot_byteAt k hj (show 4 * c + m < 12 by omega)
  simpa only [goff, ← Nat.add_assoc] using hbyte

/-- Settles O32: rotations compose, and a count is as good as its remainder; the other laws follow. -/
theorem rotationLaws : Obligations.RotationLaws := by
  intro s hs
  have hmultiple (m : Int) : (s.rotated (m * s.pixelCount)).mem = s.mem := by
    rw [s.rotated_of_count_zero (rotateCount_mul _ m)]
  refine ⟨hmultiple, fun k => ⟨?complement, ?negative⟩, State.rotated_rotated_mem hs,
    fun k => ?remainder, fun hone k => ?one, fun v hv k i hi => State.rotated_holdsTriple hv k hi, fun k => rfl⟩
  case complement =>
    rw [State.rotated_rotated_mem hs, show k + ((s.pixelCount : Int) - k) = 1 * s.pixelCount by ring]
    exact hmultiple 1
  case negative =>
    rw [State.rotated_rotated_mem hs, show k + -k = 0 * (s.pixelCount : Int) by ring]
    exact hmultiple 0
  case remainder =>
    rw [s.rotated_congr (rotateCount_emod s.pixelCount k)]
  case one =>
    have hlt := rotateCount_lt (Nat.le_refl 1) k
    rw [s.rotated_of_count_zero (by rw [hone]; omega)]

/-! ## The three steps -/

/-- R172: the saved bytes and the moved ones, each written where it belongs. -/
theorem State.rotateThreeStep_spec {s : State} (hs : s.Inv) {c : Nat} (hc : c ≤ s.length) :
    ∃ t, s.rotateThreeStep c = .ok t ∧ s.Wrote t 0 s.length ∧
      (∀ x < c, t.byteAt x = s.byteAt (s.length - c + x)) ∧
      ∀ x, c ≤ x → x < s.length → t.byteAt x = s.byteAt (x - c) := by
  obtain ⟨t, hfront, hwrote1, hbytes1⟩ := State.memWrite_spec (s := s) (a := c) (bs := s.bytes 0 (s.length - c))
    (by rw [State.bytes_length]; omega) fun _ hr => hs.bytes_canonical hr _ _
  obtain ⟨u, hsaved, hwrote2, hbytes2⟩ := State.memWrite_spec (s := t) (a := 0) (bs := s.bytes (s.length - c) c)
    (by rw [State.bytes_length, hwrote1.length]; omega)
    fun _ hr => hs.bytes_canonical (hwrote1.resetByte.symm.trans hr) _ _
  simp only [State.bytes_length, State.bytes_getElem, Nat.zero_add] at hbytes1 hbytes2 hwrote1 hwrote2
  refine ⟨u, ?run, (hwrote1.trans hwrote2).mono (by omega) (by omega), hbytes2, fun x hcx hx => ?moved⟩
  case run =>
    rw [State.rotateThreeStep, State.memRead_ok (by omega), State.memRead_ok (by omega)]
    change (do let t ← s.memWrite c _; t.memWrite 0 _) = _
    rw [hfront]
    exact hsaved
  case moved =>
    have hbyte := hbytes1 (x - c) (by omega)
    rw [Nat.add_sub_cancel' hcx] at hbyte
    rw [hwrote2.outside x (.inr hcx), hbyte]

/-- Settles O33: either way the byte at `p` goes to `(p + c) mod L`: the last `c` bytes to the front, the others up. -/
theorem threeStepRotationAgrees : Obligations.ThreeStepRotationAgrees := by
  intro k s hs _
  have hn : 1 ≤ s.pixelCount := hs.1
  have hlen : 12 * rotateCount s.pixelCount k < s.length := by
    have hcount := rotateCount_lt hn k
    rw [State.length]
    omega
  obtain ⟨hwrote, hplace⟩ := s.rotated_spec k
  obtain ⟨t, hrun, hthree, hfront, hmoved⟩ := State.rotateThreeStep_spec hs hlen.le
  generalize 12 * rotateCount s.pixelCount k = c at *
  rw [hrun, hthree.eq_of_mem_eq hwrote (hthree.mem_eq hwrote hs fun x _ hx => ?_)]
  by_cases hcx : c ≤ x
  · have hx' := hplace (x - c) (by omega)
    rw [Nat.sub_add_cancel hcx, Nat.mod_eq_of_lt hx] at hx'
    rw [hmoved x hcx hx, hx']
  · have hx' := hplace (s.length - c + x) (by omega)
    rw [show s.length - c + x + c = x + s.length by omega, Nat.add_mod_right, Nat.mod_eq_of_lt hx] at hx'
    rw [hfront x (by omega), hx']

/-! ## ROTATE's error -/

theorem scalarInt_nonInteger {v : Value} (h : ∀ k : Int, v ≠ .scalar (.int k)) :
    scalarInt v = .error .typeMismatch := by
  match v, h with
  | .scalar (.int k), h => exact absurd rfl (h k)
  | .scalar .nonInt, _ => rfl
  | .seq _, _ => rfl
  | .seqSeq _, _ => rfl

/-- Settles O31: the check of the count decides. -/
theorem rotateRejectsNonInteger : Obligations.RotateRejectsNonInteger := by
  intro v s h
  change execRotate v s = _
  rw [execRotate, scalarInt_nonInteger h]
  rfl

end Sys2Proof.Machine
end

section
/-! PROOFS. WRITE by what stands on the port TXS (44_transport.md sections 1 to 3). -/

namespace Sys2Proof.Machine

/-! ## The three cases -/

theorem execWrite_of_answer {s : State} {fail : BitVec 1} {info : Word} {rest : List TxsInput}
    (h : s.txs = .answer fail info :: rest) :
    execWrite s = .next (s.transmitted (readTxs fail info) rest s.draws) := by
  have hnext : s.nextAnswer = (some (readTxs fail info), { s with txs := rest }) := by rw [State.nextAnswer, h]; rfl
  rw [execWrite, hnext]
  simp [State.transmitted, State.emit, State.bytes, State.byteAt, State.length]

theorem execWrite_of_drawn {s : State} (h : s.txs = []) :
    execWrite s = .next (s.transmitted (Config.transportAnswer s.draws) s.txs (s.draws + 1)) := by
  have hnext : s.nextAnswer = (some (Config.transportAnswer s.draws), { s with draws := s.draws + 1 }) := by
    rw [State.nextAnswer, h]
  rw [execWrite, hnext]
  simp [State.transmitted, State.emit, State.bytes, State.byteAt, State.length]

theorem execWrite_of_silent {s : State} {rest : List TxsInput} (h : s.txs = .silent :: rest) :
    execWrite s = .fault .transportSilent := by
  rw [execWrite, State.nextAnswer, h]
  rfl

/-- Settles O34: the answer supplied, the answer drawn, and silence. -/
theorem writeCompletes : Obligations.WriteCompletes := by
  intro s
  refine ⟨fun info rest h => execWrite_of_answer h, fun info rest h => execWrite_of_answer h,
    fun h => (execWrite_of_drawn h).trans ?_, fun rest h => execWrite_of_silent h⟩
  rw [State.transmitted]
  cases Config.transportAnswer s.draws <;> rfl

/-! ## The ports -/

theorem transmitted_txPort (s : State) (a : TransportAnswer) (txs : List TxsInput) (draws : Nat) :
    (s.transmitted a txs draws).txPort = s.txPort ++ s.bytes 0 s.length := by
  simp [State.txPort, State.transmitted, Event.txBytes]

theorem transmitted_rspPort (s : State) (a : TransportAnswer) (txs : List TxsInput) (draws : Nat) :
    (s.transmitted a txs draws).rspPort = s.rspPort ++ (answerResponse a).words := by
  simp [State.rspPort, State.transmitted, Event.rspWords]

/-- R188: the response to a WRITE in words, by the bit on TXS. -/
theorem answerResponse_readTxs_words (fail : BitVec 1) (info : Word) :
    (answerResponse (readTxs fail info)).words = if fail = 1 then [7, 1, info] else [0, 0] := by
  rcases BitVec.eq_zero_or_eq_one fail with rfl | rfl <;> rfl

/-- Settles O60: the Tx event and the response each appear on their own port, and TXS has two readings. -/
theorem transportPorts : Obligations.TransportPorts := by
  refine ⟨fun s h => ?tx, fun info info' => ⟨rfl, rfl, rfl⟩, fun a => ?spelling, fun s fail info rest h => ?rsp⟩
  case tx =>
    obtain ⟨a, txs, draws, hnext⟩ := execWrite_of_transportAnswers h
    exact ⟨_, hnext, transmitted_txPort s a txs draws, s.bytes_length 0 _⟩
  case spelling =>
    cases a with
    | ok => exact ⟨0, 0, rfl, rfl⟩
    | fail info => exact ⟨1, info, rfl, rfl⟩
  case rsp =>
    exact ⟨_, execWrite_of_answer h, rfl, rfl, by rw [transmitted_rspPort, answerResponse_readTxs_words]⟩

end Sys2Proof.Machine
end

section
/-! PROOFS. How each instruction ends: the level-1 request behind it, the statuses of its row in 60_exceptions.md R199,
the size of its answer, and whether it can write BUF at all. -/

namespace Sys2Proof.Machine

/-- Settles O43: `exec_eq_perform_request` compares the two form by form, through what `resolve` answers. -/
theorem levelsAgree : Obligations.LevelsAgree := exec_eq_perform_request

/-! ## The ends of a command -/

/-- What a command other than WRITE answers from `s`: its last act is a response whose status is one of `codes` and
whose data words are at most `3 * N + 1`, and before it nothing has changed, unless the command may write. -/
def Answers (s : State) (codes : List Nat) (mayWrite : Bool) (o : Out) : Prop :=
  ∀ t, o = .next t → ∃ u r, t = u.emit (.response r) ∧ r.code ∈ codes ∧
    r.dataWords.length ≤ 3 * s.pixelCount + 1 ∧ (mayWrite = false → u = s)

section
variable {s : State} {codes : List Nat} {mayWrite : Bool}

theorem Answers.ofRespond {d : Payload} (h0 : 0 ∈ codes) (hsize : d.words.length ≤ 3 * s.pixelCount + 1) :
    Answers s codes mayWrite (respond d s) := by
  rintro t ⟨⟩
  exact ⟨s, .ok d, rfl, h0, hsize, fun _ => rfl⟩

theorem ErrorKind.dataWords_length_le (e : ErrorKind) : (Response.error e).dataWords.length ≤ 1 := by
  cases e <;> simp [Response.dataWords]

theorem Answers.ofRaise {e : ErrorKind} (h : e.code ∈ codes) : Answers s codes mayWrite (raise e s) := by
  rintro t ⟨⟩
  exact ⟨s, .error e, rfl, h, le_add_left e.dataWords_length_le, fun _ => rfl⟩

theorem Answers.ofAndThen {α : Type} {x : Except ErrorKind α} {f : α → Out}
    (he : ∀ e, x = .error e → e.code ∈ codes) (hf : ∀ v, x = .ok v → Answers s codes mayWrite (f v)) :
    Answers s codes mayWrite (andThen s x f) := by
  cases x with
  | ok v => exact hf v rfl
  | error e => exact .ofRaise (he e rfl)

theorem Answers.ofFinish {x : Except Fault State} (h0 : 0 ∈ codes) : Answers s codes true (finish x) := by
  cases x with
  | ok t =>
    rintro _ ⟨⟩
    exact ⟨t, .ok .empty, rfl, h0, Nat.zero_le _, fun h => by cases h⟩
  | error f => rintro _ ⟨⟩

/-- The answer of a GET whose read cannot fail. -/
theorem Answers.ofValues {vs : List Byte} (h0 : 0 ∈ codes) (hsize : vs.length ≤ 3 * s.pixelCount) :
    Answers s codes mayWrite (answerValues s (.ok vs)) :=
  .ofRespond h0 (by rw [Payload.words, List.length_map]; omega)

end

theorem State.pixels_length (s : State) (a k : Nat) : (s.pixels a k).length = 3 * k := by
  induction k generalizing a with
  | zero => rfl
  | succ k ih => rw [State.pixels_succ, List.length_append, ih]; simp [State.pixel]; omega

/-! ## Each check with the codes of its errors -/

theorem code_of_normIndex_error {n : Nat} {p : Int} {e : ErrorKind} (h : normIndex n p = .error e) : e.code = 1 := by
  rw [normIndex_error h]
  rfl

theorem code_of_resolvePair_error {n : Nat} {p c : Int} {e : ErrorKind} (h : resolvePair n p c = .error e) :
    e.code = 1 := by
  rw [resolvePair_error h]
  rfl

theorem code_of_resolveRange_error {n : Nat} {start stop step : Option Int} {e : ErrorKind}
    (h : resolveRange n start stop step = .error e) : e.code = 2 := by
  rw [resolveRange_error h]
  rfl

theorem code_of_scalarInt_error {v : Value} {e : ErrorKind} (h : scalarInt v = .error e) : e.code = 4 := by
  rw [scalarInt_error h]
  rfl

theorem code_of_scalarValue_error {v : Value} {e : ErrorKind} (h : scalarValue v = .error e) : e.code ∈ [4, 5] := by
  rcases scalarValue_error h with rfl | rfl <;> decide

theorem code_of_checkTriple_error {xs : List Comp} {e : ErrorKind} (h : checkTriple xs = .error e) :
    e.code ∈ [3, 4, 5] := by
  rcases checkTriple_error h with rfl | rfl | rfl <;> decide

theorem code_of_checkTriples_error {es : List (List Comp)} {e : ErrorKind} (h : checkTriples es = .error e) :
    e.code ∈ [3, 4, 5] := by
  rcases checkTriples_error h with rfl | rfl | rfl <;> decide

/-! ## Each instruction -/

theorem answers_setSingle (i : Nat) (v : Value) (s : State) : Answers s [0, 1, 3, 4, 5] true (setSingle i v s) := by
  cases v with
  | seq xs =>
    exact .ofAndThen (fun e he => List.mem_of_mem_tail (List.mem_of_mem_tail (code_of_checkTriple_error he)))
      fun _ _ => .ofFinish (by decide)
  | scalar c => exact .ofRaise (by decide)
  | seqSeq es => exact .ofRaise (by decide)

/-- The statuses of R199, for every instruction but WRITE. -/
theorem answers_exec (i : Instr) (s : State) (h : i ≠ .write) :
    Answers s i.statusCodes i.writesBuffer (exec i s) := by
  cases i with
  | expand x =>
    refine .ofAndThen (fun e he => List.mem_of_mem_tail (code_of_scalarValue_error he)) fun v _ => ?_
    exact .ofRespond (by simp [Instr.statusCodes]) (by simp [Payload.words])
  | compress b0 b1 b2 b3 => exact .ofRespond (by simp [Instr.statusCodes]) (by simp [Payload.words])
  | getP p =>
    refine .ofAndThen (fun e he => by simp [code_of_normIndex_error he, Instr.statusCodes]) fun i hi => ?_
    rw [getSingle, State.readPixel_ok (normIndex_lt hi)]
    have hn := normIndex_lt hi
    exact .ofValues (by simp [Instr.statusCodes]) (by simp [State.pixel]; omega)
  | getC p c =>
    refine .ofAndThen (fun e he => by simp [code_of_resolvePair_error he, Instr.statusCodes]) fun ic hic => ?_
    obtain ⟨hi, hc⟩ := resolvePair_bounds hic
    rw [getPaired, State.readCell_ok hi hc]
    exact .ofValues (by simp [Instr.statusCodes]) (by simp; omega)
  | getR a b c =>
    refine .ofAndThen (fun e he => by simp [code_of_resolveRange_error he, Instr.statusCodes]) fun ab hab => ?_
    obtain ⟨hle, hn⟩ := resolveRange_bounds hab
    rw [getRange, State.readPixels_ok (by omega)]
    exact .ofValues (by simp [Instr.statusCodes]) (by rw [State.pixels_length]; omega)
  | setP p v =>
    exact .ofAndThen (fun e he => by simp [code_of_normIndex_error he, Instr.statusCodes])
      fun i _ => answers_setSingle i v s
  | setC p c v =>
    refine .ofAndThen (fun e he => by simp [code_of_resolvePair_error he, Instr.statusCodes]) fun ic _ => ?_
    exact .ofAndThen (fun e he => List.mem_of_mem_tail (List.mem_of_mem_tail (code_of_scalarValue_error he)))
      fun _ _ => .ofFinish (by simp [Instr.statusCodes])
  | setRB a b c xs =>
    refine .ofAndThen (fun e he => by simp [code_of_resolveRange_error he, Instr.statusCodes]) fun ab _ => ?_
    refine .ofAndThen (fun e he => List.mem_of_mem_tail (List.mem_of_mem_tail (code_of_checkTriple_error he)))
      fun v _ => ?_
    split
    · exact .ofRespond (by simp [Instr.statusCodes]) (by simp [Payload.words])
    · exact .ofFinish (by simp [Instr.statusCodes])
  | setRL a b c es =>
    refine .ofAndThen (fun e he => by simp [code_of_resolveRange_error he, Instr.statusCodes]) fun ab _ => ?_
    rw [setList]
    split
    · exact .ofRaise (by simp [Instr.statusCodes, ErrorKind.code])
    · exact .ofAndThen (fun e he => List.mem_of_mem_tail (List.mem_of_mem_tail (code_of_checkTriples_error he)))
        fun _ _ => .ofFinish (by simp [Instr.statusCodes])
  | setRX0 a b c v | setRX3 a b c =>
    exact .ofAndThen (fun e he => by simp [code_of_resolveRange_error he, Instr.statusCodes])
      fun _ _ => .ofRaise (by simp [Instr.statusCodes, ErrorKind.code])
  | getA3 | getA4 | getA5 | getA6 | getA7 | getA8 | setA3 v | setA4 v | setA5 v | setA6 v | setA7 v | setA8 v =>
    exact .ofRaise (by simp [Instr.statusCodes, ErrorKind.code])
  | count => exact .ofRespond (by simp [Instr.statusCodes]) (by simp [Payload.words])
  | rotate v =>
    refine .ofAndThen (fun e he => by simp [code_of_scalarInt_error he, Instr.statusCodes]) fun k _ => ?_
    exact .ofFinish (x := .ok (s.rotated k)) (by simp [Instr.statusCodes])
  | write => exact absurd rfl h

theorem exec_write_next {s t : State} (h : exec .write s = .next t) :
    ∃ a txs draws, t = s.transmitted a txs draws := by
  obtain ⟨a, txs, draws, hnext⟩ | ⟨hfault, -⟩ := execWrite_cases s
  · exact ⟨a, txs, draws, Host.Outcome.next.inj (h.symm.trans hnext)⟩
  · cases h.symm.trans hfault

theorem answerResponse_code (a : TransportAnswer) : (answerResponse a).code ∈ Instr.write.statusCodes := by
  cases a <;> simp [answerResponse, Response.code, ErrorKind.code, Instr.statusCodes]

/-- Settles O42: the last event of a command is its response, with a status of its row. -/
theorem statusesByInstruction : Obligations.StatusesByInstruction := by
  intro i s t h
  by_cases hi : i = .write
  · subst hi
    obtain ⟨a, txs, draws, rfl⟩ := exec_write_next h
    exact ⟨answerResponse a, by simp [State.transmitted], answerResponse_code a⟩
  · obtain ⟨u, r, rfl, hcode, -, -⟩ := answers_exec i s hi t h
    exact ⟨r, by simp, hcode⟩

/-- Settles O40: a command that may not write BUF is its response alone, or a WRITE, which moves the transport's
side. -/
theorem readersLeaveBuffer : Obligations.ReadersLeaveBuffer := by
  intro i s t hreader h
  by_cases hi : i = .write
  · subst hi
    obtain ⟨a, txs, draws, rfl⟩ := exec_write_next h
    exact ⟨rfl, rfl, fun hne => absurd rfl hne⟩
  · obtain ⟨u, r, rfl, -, -, hsame⟩ := answers_exec i s hi t h
    obtain rfl := hsame hreader
    exact ⟨rfl, rfl, fun _ => ⟨rfl, rfl⟩⟩

/-! ## The words of a response -/

theorem Response.code_lt (r : Response) : r.code < 256 := by
  cases r with
  | ok d => exact Nat.zero_lt_succ 255
  | error e => cases e <;> simp [Response.code, ErrorKind.code]

/-- Whatever an instruction emits as a response has at most three data words per pixel, and one more. -/
theorem dataWords_length_of_emitted {i : Instr} {s t : State} {r : Response} (h : exec i s = .next t)
    (hr : .response r ∈ s.emitted t) : r.dataWords.length ≤ 3 * s.pixelCount + 1 := by
  by_cases hi : i = .write
  · subst hi
    obtain ⟨a, txs, draws, rfl⟩ := exec_write_next h
    have hemitted : s.emitted (s.transmitted a txs draws) =
        [.tx (s.bytes 0 s.length), .response (answerResponse a)] := State.emitted_of_trace rfl
    obtain rfl : r = answerResponse a := by simpa [hemitted] using hr
    cases a with
    | ok => exact Nat.zero_le _
    | fail info => exact le_add_left (ErrorKind.dataWords_length_le _)
  · obtain ⟨u, r', rfl, -, hsize, -⟩ := answers_exec i s hi t h
    obtain ⟨r'', hframe⟩ := (exec_ends i s hi).frame h
    have htrace : u.trace ++ [.response r'] = s.trace ++ [.response r''] := congrArg State.trace hframe
    obtain ⟨hsame, hlast⟩ := List.append_inj' htrace rfl
    rw [State.emitted_of_trace (by rw [State.emit_trace, hsame]), List.mem_singleton] at hr
    cases hr
    exact hsize

theorem setWidth_eq_zero_append (v : Byte) : v.setWidth 32 = 0#24 ++ v :=
  BitVec.setWidth_eq_append (by decide)

/-- Settles O59: the size of an answer bounds DCOUNT, and each kind of response has its words by definition. -/
theorem responseWordsExact : Obligations.ResponseWordsExact := by
  refine ⟨fun i s t r hmax h hr => ?sizes, ⟨rfl, rfl⟩, fun g => ⟨rfl, rfl⟩, fun vs => ⟨?values, rfl⟩,
    fun n => ⟨rfl, fun hn => ?count⟩, fun e he => ?errors, fun info => ⟨rfl, rfl⟩, rfl⟩
  case sizes =>
    have hsize := dataWords_length_of_emitted h hr
    have hcode := r.code_lt
    rw [Config.maxPixels] at hmax
    refine ⟨_, _, rfl, ?_, hcode, ?_⟩
    · rw [BitVec.toNat_ofNat, Nat.mod_eq_of_lt (by omega)]
    · rw [BitVec.toNat_ofNat, Nat.mod_eq_of_lt (by omega)]
  case values =>
    simp [Response.words, Response.code, Response.dataWords, Payload.words, setWidth_eq_zero_append]
  case count =>
    rw [Config.maxPixels] at hn
    simp [Response.words, Response.code, Response.dataWords, Payload.words]
    omega
  case errors =>
    cases e with
    | transportFailure info => exact absurd rfl (he info)
    | _ => exact ⟨rfl, rfl⟩

end Sys2Proof.Machine
end

section
/-! PROOFS. Repeating a SET (20_memory.md section 4): either its operands are wrong, and then they are wrong again, or
it writes bytes that its operands determine, and then it writes them again. -/

namespace Sys2Proof.Machine

/-! ## Bytes that are determined -/

theorem State.byteAt_eq_of_groupAt_eq {t u : State} {a k : Nat} (h : t.groupAt a = u.groupAt a) (hk : k < 4) :
    t.byteAt (a + k) = u.byteAt (a + k) := by
  simp only [State.groupAt, Group.mk.injEq] at h
  obtain ⟨h0, h1, h2, h3⟩ := h
  interval_cases k
  exacts [h0, h1, h2, h3]

/-- A slot's twelve bytes are determined by the triple it holds. -/
theorem State.byteAt_eq_of_holdsTriple {t u : State} {i x : Nat} {v : Triple} (ht : t.holdsTriple i v)
    (hu : u.holdsTriple i v) (hx : soff i ≤ x) (hx' : x < soff i + 12) : t.byteAt x = u.byteAt x := by
  rw [soff] at hx hx'
  have hgroup : t.groupAt (goff i ((x - 12 * i) / 4)) = u.groupAt (goff i ((x - 12 * i) / 4)) := by
    rw [ht _ (by omega), hu _ (by omega)]
  have hplace : goff i ((x - 12 * i) / 4) + (x - 12 * i) % 4 = x := by rw [goff]; omega
  have hbyte := State.byteAt_eq_of_groupAt_eq hgroup (Nat.mod_lt (x - 12 * i) (by decide))
  rwa [hplace] at hbyte

/-! ## The two ways to repeat a command -/

/-- A second run of the command answers the same and leaves the same buffer. -/
def Repeats (i : Instr) (s : State) : Prop :=
  ∃ t u r, exec i s = .next t ∧ exec i t = .next u ∧ u.mem = t.mem ∧
    t.trace = s.trace ++ [.response r] ∧ u.trace = t.trace ++ [.response r]

/-- An error that only the operands and `N` decide. -/
theorem repeats_of_raise {i : Instr} {s : State} {e : ErrorKind}
    (h : ∀ t : State, t.pixelCount = s.pixelCount → exec i t = raise e t) : Repeats i s :=
  ⟨_, _, _, h s rfl, h _ rfl, rfl, rfl, rfl⟩

/-- Bytes of a span that only the operands and `N` decide: `Q` is what a state with these bytes satisfies. -/
theorem repeats_of_writes {i : Instr} {s : State} (hs : s.Inv) (lo hi : Nat) (Q : State → Prop)
    (h : ∀ t : State, t.pixelCount = s.pixelCount →
      ∃ u, exec i t = .next (u.emit (.response (.ok .empty))) ∧ t.Wrote u lo hi ∧ Q u)
    (hQ : ∀ t u : State, Q t → Q u → ∀ x, lo ≤ x → x < hi → t.byteAt x = u.byteAt x) : Repeats i s := by
  obtain ⟨t, hexec, hwrote, hQt⟩ := h s rfl
  obtain ⟨u, hexec', hwrote', hQu⟩ := h (t.emit (.response (.ok .empty))) hwrote.pixelCount
  refine ⟨_, _, _, hexec, hexec', ?mem, by rw [State.emit_trace, hwrote.trace], by rw [State.emit_trace, hwrote'.trace]⟩
  case mem =>
    exact hwrote'.mem_eq (.refl _ _ _) ((hwrote.inv hs).emit _) fun x h1 h2 => hQ u t hQu hQt x h1 h2

/-! ## The four SETs -/

theorem repeats_setP (p : Int) (v : Value) {s : State} (hs : s.Inv) : Repeats (.setP p v) s := by
  by_cases hp : validIndex s.pixelCount p
  · cases v with
    | scalar c => exact repeats_of_raise fun t ht => (setPixelErrors p _ t).2.1 (ht ▸ hp) (by simp)
    | seqSeq es => exact repeats_of_raise fun t ht => (setPixelErrors p _ t).2.1 (ht ▸ hp) (by simp)
    | seq xs =>
      cases he : tripleError xs with
      | some e => exact repeats_of_raise fun t ht => (setPixelErrors p _ t).2.2 xs e (ht ▸ hp) rfl he
      | none =>
        obtain ⟨v, hv⟩ := checkTriple_of_no_error he
        refine repeats_of_writes hs (soff (pixelOf s.pixelCount p)) (soff (pixelOf s.pixelCount p) + 12)
          (fun u => u.holdsTriple (pixelOf s.pixelCount p) v) (fun t ht => ?_)
          fun t u ht hu x h1 h2 => State.byteAt_eq_of_holdsTriple ht hu h1 h2
        rw [← ht]
        exact exec_setP_writes (ht ▸ hp) hv
  · exact repeats_of_raise fun t ht => (setPixelErrors p v t).1 (ht ▸ hp)

theorem repeats_setC (p c : Int) (v : Value) {s : State} (hs : s.Inv) : Repeats (.setC p c v) s := by
  by_cases h : validIndex s.pixelCount p ∧ 0 ≤ c ∧ c < 3
  · obtain ⟨hp, hc⟩ := h
    cases hv : scalarValue v with
    | error e =>
      refine repeats_of_raise (e := e) fun t ht => ?_
      rw [exec_setC_valid v (ht ▸ hp) hc, setPaired, hv]
      rfl
    | ok b =>
      refine repeats_of_writes hs (goff (pixelOf s.pixelCount p) c.toNat) (goff (pixelOf s.pixelCount p) c.toNat + 4)
        (fun u => u.groupAt (goff (pixelOf s.pixelCount p) c.toNat) = expand b) (fun t ht => ?_)
        fun t u ht hu x h1 h2 => ?_
      · rw [← ht]
        exact exec_setC_writes (ht ▸ hp) hc hv
      · rw [← Nat.add_sub_cancel' h1]
        exact State.byteAt_eq_of_groupAt_eq (ht.trans hu.symm) (by omega)
  · exact repeats_of_raise fun t ht => (setChannelErrors p c v t).1 (ht ▸ h)

theorem repeats_setRB (start stop step : Option Int) (xs : List Comp) {s : State} (hs : s.Inv) :
    Repeats (.setRB start stop step xs) s := by
  by_cases hstep : stepIsOne step
  · cases hv : checkTriple xs with
    | error e =>
      refine repeats_of_raise (e := e) fun t _ => ?_
      rw [exec_setRB_step xs t hstep, setBroadcast, hv]
      rfl
    | ok v =>
      refine repeats_of_writes hs (soff (normRange s.pixelCount start stop).1)
        (soff (normRange s.pixelCount start stop).2)
        (fun u => ∀ i, (normRange s.pixelCount start stop).1 ≤ i → i < (normRange s.pixelCount start stop).2 →
          u.holdsTriple i v)
        (fun t ht => ?_) fun t u ht hu x h1 h2 => ?_
      · rw [← ht]
        obtain ⟨u, hexec, hwrote, hholds, -⟩ := exec_setRB_writes (start := start) (stop := stop) (s := t) hstep hv
        exact ⟨u, hexec, hwrote, hholds⟩
      · rw [soff] at h1 h2
        exact State.byteAt_eq_of_holdsTriple (ht (x / 12) (by omega) (by omega)) (hu _ (by omega) (by omega))
          (by rw [soff]; omega) (by rw [soff]; omega)
  · exact repeats_of_raise fun t _ => (stepOtherThanOne start stop step xs [] 0 t hstep).2.1

theorem repeats_setRL (start stop step : Option Int) (es : List (List Comp)) {s : State} (hs : s.Inv) :
    Repeats (.setRL start stop step es) s := by
  by_cases hstep : stepIsOne step
  · by_cases hlen : es.length = (normRange s.pixelCount start stop).2 - (normRange s.pixelCount start stop).1
    · cases hvs : checkTriples es with
      | error e =>
        refine repeats_of_raise (e := e) fun t ht => ?_
        rw [exec_setRL_step es t hstep, setList, ht, if_neg (not_not.mpr hlen), hvs]
        rfl
      | ok vs =>
        refine repeats_of_writes hs (soff (normRange s.pixelCount start stop).1)
          (soff ((normRange s.pixelCount start stop).1 + vs.length))
          (fun u => ∀ k (hk : k < vs.length), u.holdsTriple ((normRange s.pixelCount start stop).1 + k) vs[k])
          (fun t ht => ?_) fun t u ht hu x h1 h2 => ?_
        · rw [← ht] at hlen ⊢
          obtain ⟨u, hexec, hwrote, hholds⟩ := exec_setRL_writes hstep hlen hvs
          exact ⟨u, hexec, hwrote, hholds⟩
        · rw [soff] at h1 h2
          have hk : x / 12 - (normRange s.pixelCount start stop).1 < vs.length := by omega
          exact State.byteAt_eq_of_holdsTriple (ht _ hk) (hu _ hk) (by rw [soff]; omega) (by rw [soff]; omega)
    · refine repeats_of_raise (e := .shapeMismatch) fun t ht => ?_
      rw [exec_setRL_step es t hstep, setList, ht, if_pos hlen]
  · exact repeats_of_raise fun t _ => (stepOtherThanOne start stop step [] es 0 t hstep).2.2.1

/-- Settles O41: each of the four SETs repeats. -/
theorem setIsIdempotent : Obligations.SetIsIdempotent := by
  intro i s hs hset
  cases i with
  | setP p v => exact repeats_setP p v hs
  | setC p c v => exact repeats_setC p c v hs
  | setRB start stop step xs => exact repeats_setRB start stop step xs hs
  | setRL start stop step es => exact repeats_setRL start stop step es hs
  | _ => cases hset

end Sys2Proof.Machine
end

section
/-! PROOFS. What a host can tell apart (10_state.md section 10): states with the same `N` and the same bytes of BUF, as
every operation over BUF keeps them so, and a response depends on nothing else. -/

namespace Sys2Proof.Machine

/-! ## Alike states and alike outcomes -/

/-- The same `N`, the same bytes of BUF, the same ports. -/
structure State.Alike (s s' : State) : Prop where
  pixelCount : s'.pixelCount = s.pixelCount
  bytes : ∀ a < s.length, s'.byteAt a = s.byteAt a
  txs : s'.txs = s.txs
  draws : s'.draws = s.draws
  trace : s'.trace = s.trace

/-- The same end, at alike states. -/
inductive OutAlike : Out → Out → Prop where
  | next {s s' : State} (h : s.Alike s') : OutAlike (.next s) (.next s')
  | fault (f : Fault) : OutAlike (.fault f) (.fault f)
  | refused (x : Refusal) : OutAlike (.refused x) (.refused x)

/-- The same fault, or alike states. -/
inductive WriteAlike : Except Fault State → Except Fault State → Prop where
  | ok {s s' : State} (h : s.Alike s') : WriteAlike (.ok s) (.ok s')
  | error (f : Fault) : WriteAlike (.error f) (.error f)

theorem WriteAlike.bind {x x' : Except Fault State} {f f' : State → Except Fault State} (hx : WriteAlike x x')
    (hf : ∀ s s', s.Alike s' → WriteAlike (f s) (f' s')) : WriteAlike (x >>= f) (x' >>= f') := by
  cases hx with
  | ok h => exact hf _ _ h
  | error e => exact .error e

theorem WriteAlike.finish {x x' : Except Fault State} (h : WriteAlike x x') : OutAlike (finish x) (finish x') := by
  cases h with
  | ok h => exact .next ⟨h.pixelCount, h.bytes, h.txs, h.draws, by simp [h.trace]⟩
  | error f => exact .fault f

section
variable {s s' : State}

theorem State.Alike.length (h : s.Alike s') : s'.length = s.length := by
  rw [State.length, State.length, h.pixelCount]

theorem State.Alike.emit (h : s.Alike s') (e : Event) : (s.emit e).Alike (s'.emit e) :=
  ⟨h.pixelCount, h.bytes, h.txs, h.draws, by simp [h.trace]⟩

theorem State.Alike.respond (h : s.Alike s') (d : Payload) : OutAlike (respond d s) (respond d s') :=
  .next (h.emit _)

theorem State.Alike.raise (h : s.Alike s') (e : ErrorKind) : OutAlike (raise e s) (raise e s') := .next (h.emit _)

theorem State.Alike.answerValues (h : s.Alike s') (x : Except Fault (List Byte)) :
    OutAlike (answerValues s x) (answerValues s' x) := by
  cases x with
  | ok vs => exact h.respond _
  | error f => exact .fault f

theorem State.Alike.andThen {α : Type} (h : s.Alike s') {x : Except ErrorKind α} {f f' : α → Out}
    (hf : ∀ v, OutAlike (f v) (f' v)) : OutAlike (andThen s x f) (andThen s' x f') := by
  cases x with
  | ok v => exact hf v
  | error e => exact h.raise e

/-! ## Reads -/

theorem State.Alike.bytes_eq (h : s.Alike s') {a n : Nat} (hin : a + n ≤ s.length) : s'.bytes a n = s.bytes a n :=
  State.bytes_congr fun _ hk => h.bytes _ (by omega)

theorem State.Alike.memRead (h : s.Alike s') (a n : Nat) : s'.memRead a n = s.memRead a n := by
  rw [State.memRead, State.memRead, h.length]
  split
  next hin => rw [h.bytes_eq hin]
  next => rfl

theorem State.Alike.readGroup (h : s.Alike s') (a : Nat) : s'.readGroup a = s.readGroup a := by
  rw [State.readGroup, State.readGroup, h.length]
  split
  next hin => rw [State.groupAt_congr fun k hk => h.bytes (a + k) (by omega)]
  next => rfl

theorem State.Alike.readCell (h : s.Alike s') (i c : Nat) : s'.readCell i c = s.readCell i c := by
  rw [State.readCell, State.readCell, h.readGroup]

theorem State.Alike.readPixel (h : s.Alike s') (i : Nat) : s'.readPixel i = s.readPixel i := by
  simp only [State.readPixel, h.readCell]

theorem State.Alike.readPixels (h : s.Alike s') (k : Nat) : ∀ i, s'.readPixels i k = s.readPixels i k := by
  induction k with
  | zero => exact fun _ => rfl
  | succ k ih => exact fun i => by simp only [State.readPixels, h.readPixel, ih]

/-! ## Writes -/

theorem State.Alike.memWrite (h : s.Alike s') (a : Nat) (bs : List Byte) :
    WriteAlike (s.memWrite a bs) (s'.memWrite a bs) := by
  rw [State.memWrite, State.memWrite, h.length]
  split
  next hin =>
    refine .ok ⟨h.pixelCount, fun x hx => ?_, h.txs, h.draws, h.trace⟩
    simp only [State.withMem_byteAt, Memory.read_writeBytes]
    split
    · rfl
    · exact h.bytes x hx
  next => exact .error _

theorem State.Alike.writeCell (h : s.Alike s') (i c : Nat) (v : Byte) :
    WriteAlike (s.writeCell i c v) (s'.writeCell i c v) := h.memWrite _ _

theorem State.Alike.writePixel (h : s.Alike s') (i : Nat) (v : Triple) :
    WriteAlike (s.writePixel i v) (s'.writePixel i v) :=
  (h.writeCell i 0 v.c0).bind fun _ _ h => (h.writeCell i 1 v.c1).bind fun _ _ h => h.writeCell i 2 v.c2

end

theorem State.Alike.writePixels (vs : List Triple) : ∀ {s s' : State} (i : Nat), s.Alike s' →
    WriteAlike (s.writePixels i vs) (s'.writePixels i vs) := by
  induction vs with
  | nil => exact fun _ h => .ok h
  | cons v vs ih => exact fun i h => (h.writePixel i v).bind fun _ _ h => ih (i + 1) h

theorem State.Alike.tileCopy (a k : Nat) : ∀ {s s' : State} (i : Nat), s.Alike s' →
    WriteAlike (s.tileCopy a i k) (s'.tileCopy a i k) := by
  induction k with
  | zero => exact fun _ h => .ok h
  | succ k ih =>
    intro s s' i h
    rw [State.tileCopy, State.tileCopy, h.memRead]
    cases s.memRead (soff a) 12 with
    | ok slot => exact (h.memWrite _ slot).bind fun _ _ h => ih (i + 1) h
    | error f => exact .error f

/-- ROTATE moves alike bytes to alike places. -/
theorem State.Alike.rotated {s s' : State} (h : s.Alike s') (k : Int) : (s.rotated k).Alike (s'.rotated k) := by
  have hwrote := (s.rotated_spec k).1
  have hwrote' := (s'.rotated_spec k).1
  have hbytes : ∀ q < (s.rotated k).length, (s'.rotated k).byteAt q = (s.rotated k).byteAt q := by
    intro q hq
    rw [hwrote.length] at hq
    rw [s.rotated_byteAt k hq, s'.rotated_byteAt k (h.length.symm ▸ hq), h.pixelCount, h.length]
    exact h.bytes _ (rotate_source _ hq).1
  refine ⟨?_, hbytes, ?_, ?_, ?_⟩ <;> rw [hwrote.frame, hwrote'.frame]
  exacts [h.pixelCount, h.txs, h.draws, h.trace]

/-! ## Requests -/

section
variable {s s' : State}

theorem State.Alike.getResolved (h : s.Alike s') (r : Resolved) : OutAlike (getResolved r s) (getResolved r s') := by
  cases r with
  | single i =>
    rw [Machine.getResolved, Machine.getResolved, getSingle, getSingle, h.readPixel]
    exact h.answerValues _
  | paired i c =>
    rw [Machine.getResolved, Machine.getResolved, getPaired, getPaired, h.readCell]
    exact h.answerValues _
  | range a b =>
    rw [Machine.getResolved, Machine.getResolved, getRange, getRange, h.readPixels]
    exact h.answerValues _

theorem State.Alike.setResolved (h : s.Alike s') (r : Resolved) (v : Value) :
    OutAlike (setResolved r v s) (setResolved r v s') := by
  cases r with
  | single i =>
    cases v with
    | seq xs => exact h.andThen fun v => (h.writePixel i v).finish
    | scalar c => exact h.raise _
    | seqSeq es => exact h.raise _
  | paired i c => exact h.andThen fun b => (h.writeCell i c b).finish
  | range a b =>
    cases v with
    | seq xs =>
      refine h.andThen fun v => ?_
      split
      · exact h.respond _
      · exact ((h.writePixel a v).bind fun _ _ h => State.Alike.tileCopy a _ (a + 1) h).finish
    | seqSeq es =>
      rw [Machine.setResolved, Machine.setResolved, setList, setList]
      split
      · exact h.raise _
      · exact h.andThen fun vs => (State.Alike.writePixels vs a h).finish
    | scalar c => exact h.raise _

/-- WRITE hands over alike bytes, and the answer stands on alike ports. -/
theorem State.Alike.execWrite (h : s.Alike s') : OutAlike (execWrite s) (execWrite s') := by
  have htransmitted (a : TransportAnswer) (txs : List TxsInput) (draws : Nat) :
      OutAlike (.next (s.transmitted a txs draws)) (.next (s'.transmitted a txs draws)) := by
    refine .next ⟨h.pixelCount, h.bytes, rfl, rfl, ?_⟩
    simp only [State.transmitted, h.trace, h.length, h.bytes_eq (a := 0) (n := s.length) (by omega)]
  cases htxs : s.txs with
  | nil =>
    rw [execWrite_of_drawn htxs, execWrite_of_drawn (h.txs.trans htxs), h.draws, h.txs]
    exact htransmitted _ _ _
  | cons x rest =>
    cases x with
    | answer fail info =>
      rw [execWrite_of_answer htxs, execWrite_of_answer (h.txs.trans htxs), h.draws]
      exact htransmitted _ _ _
    | silent =>
      rw [execWrite_of_silent htxs, execWrite_of_silent (h.txs.trans htxs)]
      exact .fault _

theorem State.Alike.perform (h : s.Alike s') (r : Request) : OutAlike (perform r s) (perform r s') := by
  cases r with
  | expand x => exact h.andThen fun v => h.respond _
  | compress b0 b1 b2 b3 => exact h.respond _
  | get addr =>
    rw [Machine.perform, Machine.perform, h.pixelCount]
    exact h.andThen fun r => h.getResolved r
  | set addr v =>
    rw [Machine.perform, Machine.perform, h.pixelCount]
    exact h.andThen fun r => h.setResolved r v
  | count =>
    rw [Machine.perform, Machine.perform, execCount, execCount, h.pixelCount]
    exact h.respond _
  | rotate v => exact h.andThen fun k => (h.rotated k).respond _
  | write => exact h.execWrite

end

theorem State.Alike.performAll (rs : List Request) : ∀ {s s' : State}, s.Alike s' →
    OutAlike (performAll rs s) (performAll rs s') := by
  induction rs with
  | nil => exact fun h => .next h
  | cons r rs ih =>
    intro s s' h
    have hfirst := h.perform r
    rw [Machine.performAll, Machine.performAll]
    generalize Machine.perform r s = o at hfirst ⊢
    generalize Machine.perform r s' = o' at hfirst ⊢
    cases hfirst with
    | next h => exact ih h
    | fault f => exact .fault f
    | refused x => exact .refused x

/-- Requests change neither `N` nor, with it, the length of BUF. -/
theorem performAll_pixelCount (rs : List Request) : ∀ {s t : State}, performAll rs s = .next t →
    t.pixelCount = s.pixelCount := by
  induction rs with
  | nil => intro s t h; cases h; rfl
  | cons r rs ih =>
    intro s t h
    rw [performAll] at h
    split at h
    next u hu =>
      obtain ⟨hcount, -⟩ := runMove_keeps (m := .request r) hu
      exact (ih h).trans hcount
    next => cases h
    next => cases h

/-- Settles O57: alike states stay alike, request by request. -/
theorem indistinguishable : Obligations.Indistinguishable := by
  intro rs s s' t hn hbytes htxs hdraws htrace h
  have hout := State.Alike.performAll rs (s := s) (s' := s') ⟨hn, hbytes, htxs, hdraws, htrace⟩
  rw [h] at hout
  generalize ho : performAll rs s' = o' at hout
  cases hout with
  | next halike =>
    refine ⟨_, rfl, halike.trace, fun a ha => halike.bytes a ?_⟩
    rwa [State.length, performAll_pixelCount rs h]

end Sys2Proof.Machine
end
